-- ==== Sys2Proof/Word.lean ====
section
/-! DEFINITION. The machine's words (`00_scope.md` R5, R7; `30_encoding.md` R71). All values are unsigned. -/

namespace Sys2Proof

/-- 8 bits: a general register, a byte of memory, the immediate `NN`. -/
abbrev Byte := BitVec 8

/-- 16 bits: an instruction word, `pc`, `I`, a stack entry. -/
abbrev Word := BitVec 16

/-- The 12-bit address field `NNN` (R71). -/
abbrev Addr := BitVec 12

/-- The number of a general register, a 4-bit field, always in 0..15 (R21). -/
abbrev RegIdx := Fin 16

/-- The 4-bit row count `N` of `DXYN` (R73). -/
abbrev Nibble := BitVec 4

end Sys2Proof
end

