-- ==== Sys2Proof/Syntax.lean ====
section
/-! DEFINITION. The instruction set: one constructor per row of `spec/opcode_table.json` (`30_encoding.md` R75). -/

namespace Sys2Proof

/-- The 35 instructions. The constructor's name follows the assembler form of R83; its docstring gives the row's
pattern (the primary name) and its rule. -/
inductive Instr where
  /-- `00E0` `CLS` (R161). -/
  | cls
  /-- `00EE` `RET` (R100). -/
  | ret
  /-- `0NNN` `SYS addr` (R101). -/
  | sys (nnn : Addr)
  /-- `1NNN` `JP addr` (R102). -/
  | jp (nnn : Addr)
  /-- `2NNN` `CALL addr` (R103). -/
  | call (nnn : Addr)
  /-- `3XNN` `SE Vx, byte` (R104). -/
  | seImm (x : RegIdx) (nn : Byte)
  /-- `4XNN` `SNE Vx, byte` (R105). -/
  | sneImm (x : RegIdx) (nn : Byte)
  /-- `5XY0` `SE Vx, Vy` (R106). -/
  | seReg (x y : RegIdx)
  /-- `6XNN` `LD Vx, byte` (R120). -/
  | ldImm (x : RegIdx) (nn : Byte)
  /-- `7XNN` `ADD Vx, byte` (R121). -/
  | addImm (x : RegIdx) (nn : Byte)
  /-- `8XY0` `LD Vx, Vy` (R122). -/
  | ldReg (x y : RegIdx)
  /-- `8XY1` `OR Vx, Vy` (R123). -/
  | orReg (x y : RegIdx)
  /-- `8XY2` `AND Vx, Vy` (R124). -/
  | andReg (x y : RegIdx)
  /-- `8XY3` `XOR Vx, Vy` (R125). -/
  | xorReg (x y : RegIdx)
  /-- `8XY4` `ADD Vx, Vy` (R126). -/
  | addReg (x y : RegIdx)
  /-- `8XY5` `SUB Vx, Vy` (R127). -/
  | sub (x y : RegIdx)
  /-- `8XY6` `SHR Vx` (R128); the field `y` is decoded and ignored (R77). -/
  | shr (x y : RegIdx)
  /-- `8XY7` `SUBN Vx, Vy` (R129). -/
  | subn (x y : RegIdx)
  /-- `8XYE` `SHL Vx` (R130); the field `y` is decoded and ignored (R77). -/
  | shl (x y : RegIdx)
  /-- `9XY0` `SNE Vx, Vy` (R107). -/
  | sneReg (x y : RegIdx)
  /-- `ANNN` `LD I, addr` (R140). -/
  | ldI (nnn : Addr)
  /-- `BNNN` `JP V0, addr` (R108). -/
  | jpV0 (nnn : Addr)
  /-- `CXNN` `RND Vx, byte` (R131). -/
  | rnd (x : RegIdx) (nn : Byte)
  /-- `DXYN` `DRW Vx, Vy, nibble` (R162). -/
  | drw (x y : RegIdx) (n : Nibble)
  /-- `EX9E` `SKP Vx` (R183). -/
  | skp (x : RegIdx)
  /-- `EXA1` `SKNP Vx` (R184). -/
  | sknp (x : RegIdx)
  /-- `FX07` `LD Vx, DT` (R180). -/
  | ldVxDT (x : RegIdx)
  /-- `FX0A` `LD Vx, K` (R185). -/
  | ldVxK (x : RegIdx)
  /-- `FX15` `LD DT, Vx` (R181). -/
  | ldDTVx (x : RegIdx)
  /-- `FX18` `LD ST, Vx` (R182). -/
  | ldSTVx (x : RegIdx)
  /-- `FX1E` `ADD I, Vx` (R141). -/
  | addI (x : RegIdx)
  /-- `FX29` `LD F, Vx` (R142). -/
  | ldF (x : RegIdx)
  /-- `FX33` `LD B, Vx` (R143). -/
  | ldB (x : RegIdx)
  /-- `FX55` `LD [I], Vx` (R144). -/
  | storeRegs (x : RegIdx)
  /-- `FX65` `LD Vx, [I]` (R145). -/
  | loadRegs (x : RegIdx)
  deriving DecidableEq, Repr

end Sys2Proof
end

