-- ==== Sys2Proof/Decode.lean ====
section
/-! DEFINITION. Decoder and encoder of the 16-bit instruction word (`30_encoding.md` R70 to R82). -/

namespace Sys2Proof

/-- Why the decoder rejects a word: R81's five groups of illegal words, or too few bytes for a word. -/
inductive Reject where
  /-- `5XYN` with N ≠ 0 (R78). -/
  | family5
  /-- `8XYN` with N in 8..D or F (R77). -/
  | family8
  /-- `9XYN` with N ≠ 0 (R78). -/
  | family9
  /-- `EXNN` with NN other than 9E, A1 (R79). -/
  | familyE
  /-- `FXNN` with NN outside the nine listed (R80). -/
  | familyF
  /-- Fewer than the two bytes of a word (R70). -/
  | truncated
  deriving DecidableEq, Repr

/-! ### Fields of the word (R71) -/

/-- `op` = `iw[15:12]`. -/
def fieldOp (w : Word) : Nibble := w.extractLsb' 12 4
/-- `X` = `iw[11:8]`. -/
def fieldX (w : Word) : RegIdx := (w.extractLsb' 8 4).toFin
/-- `Y` = `iw[7:4]`. -/
def fieldY (w : Word) : RegIdx := (w.extractLsb' 4 4).toFin
/-- `N` = `iw[3:0]`. -/
def fieldN (w : Word) : Nibble := w.extractLsb' 0 4
/-- `NN` = `iw[7:0]`. -/
def fieldNN (w : Word) : Byte := w.extractLsb' 0 8
/-- `NNN` = `iw[11:0]`. -/
def fieldNNN (w : Word) : Addr := w.extractLsb' 0 12

/-! ### Decoding, in the two levels of R74 -/

/-- Family 0 (R76): the two fixed words first, every other word is `0NNN`. -/
def decode0 (w : Word) : Instr :=
  if w = 0x00E0#16 then .cls else if w = 0x00EE#16 then .ret else .sys (fieldNNN w)

/-- Family 8 (R77): `N` selects. -/
def decode8 (x y : RegIdx) (n : Nibble) : Except Reject Instr :=
  match n.toNat with
  | 0x0 => .ok (.ldReg x y)
  | 0x1 => .ok (.orReg x y)
  | 0x2 => .ok (.andReg x y)
  | 0x3 => .ok (.xorReg x y)
  | 0x4 => .ok (.addReg x y)
  | 0x5 => .ok (.sub x y)
  | 0x6 => .ok (.shr x y)
  | 0x7 => .ok (.subn x y)
  | 0xE => .ok (.shl x y)
  | _ => .error .family8

/-- Family E (R79): `NN` selects. -/
def decodeE (x : RegIdx) (nn : Byte) : Except Reject Instr :=
  match nn.toNat with
  | 0x9E => .ok (.skp x)
  | 0xA1 => .ok (.sknp x)
  | _ => .error .familyE

/-- Family F (R80): `NN` selects. -/
def decodeF (x : RegIdx) (nn : Byte) : Except Reject Instr :=
  match nn.toNat with
  | 0x07 => .ok (.ldVxDT x)
  | 0x0A => .ok (.ldVxK x)
  | 0x15 => .ok (.ldDTVx x)
  | 0x18 => .ok (.ldSTVx x)
  | 0x1E => .ok (.addI x)
  | 0x29 => .ok (.ldF x)
  | 0x33 => .ok (.ldB x)
  | 0x55 => .ok (.storeRegs x)
  | 0x65 => .ok (.loadRegs x)
  | _ => .error .familyF

/-- R74, R75: total on all 65536 words; a word is one instruction or illegal (R81; the fault for unmatched low bits is
the spec's decision D5, log 12). -/
def decodeWord (w : Word) : Except Reject Instr :=
  match (fieldOp w).toNat with
  | 0x0 => .ok (decode0 w)
  | 0x1 => .ok (.jp (fieldNNN w))
  | 0x2 => .ok (.call (fieldNNN w))
  | 0x3 => .ok (.seImm (fieldX w) (fieldNN w))
  | 0x4 => .ok (.sneImm (fieldX w) (fieldNN w))
  | 0x5 => if fieldN w = 0x0#4 then .ok (.seReg (fieldX w) (fieldY w)) else .error .family5
  | 0x6 => .ok (.ldImm (fieldX w) (fieldNN w))
  | 0x7 => .ok (.addImm (fieldX w) (fieldNN w))
  | 0x8 => decode8 (fieldX w) (fieldY w) (fieldN w)
  | 0x9 => if fieldN w = 0x0#4 then .ok (.sneReg (fieldX w) (fieldY w)) else .error .family9
  | 0xA => .ok (.ldI (fieldNNN w))
  | 0xB => .ok (.jpV0 (fieldNNN w))
  | 0xC => .ok (.rnd (fieldX w) (fieldNN w))
  | 0xD => .ok (.drw (fieldX w) (fieldY w) (fieldN w))
  | 0xE => decodeE (fieldX w) (fieldNN w)
  | _ => decodeF (fieldX w) (fieldNN w)

/-- The word two consecutive bytes spell: the first byte is the high-order byte (R53, R70). -/
def wordOfBytes (hi lo : Byte) : Word := hi ++ lo

/-- Decodes the first instruction of a byte string and gives back the rest of it. Total: too few bytes are rejected by
name. -/
def decode : List Byte → Except Reject (Instr × List Byte)
  | hi :: lo :: rest =>
    match decodeWord (wordOfBytes hi lo) with
    | .ok i => .ok (i, rest)
    | .error r => .error r
  | _ => .error .truncated

/-! ### Encoding, by the formats of R72 -/

/-- Format `A`: op, NNN. -/
def encA (op : Nibble) (nnn : Addr) : Word := op ++ nnn
/-- Formats `XB` and `XF`: op, X, NN. -/
def encXB (op : Nibble) (x : RegIdx) (nn : Byte) : Word := op ++ (BitVec.ofFin (w := 4) x ++ nn)
/-- Formats `XY` and `XYN`: op, X, Y, N. -/
def encXYN (op : Nibble) (x y : RegIdx) (n : Nibble) : Word :=
  op ++ (BitVec.ofFin (w := 4) x ++ (BitVec.ofFin (w := 4) y ++ n))

/-- The word of an instruction (R75's column "match" with the fields put in). -/
def encode : Instr → Word
  | .cls => 0x00E0#16
  | .ret => 0x00EE#16
  | .sys nnn => encA 0x0 nnn
  | .jp nnn => encA 0x1 nnn
  | .call nnn => encA 0x2 nnn
  | .seImm x nn => encXB 0x3 x nn
  | .sneImm x nn => encXB 0x4 x nn
  | .seReg x y => encXYN 0x5 x y 0x0
  | .ldImm x nn => encXB 0x6 x nn
  | .addImm x nn => encXB 0x7 x nn
  | .ldReg x y => encXYN 0x8 x y 0x0
  | .orReg x y => encXYN 0x8 x y 0x1
  | .andReg x y => encXYN 0x8 x y 0x2
  | .xorReg x y => encXYN 0x8 x y 0x3
  | .addReg x y => encXYN 0x8 x y 0x4
  | .sub x y => encXYN 0x8 x y 0x5
  | .shr x y => encXYN 0x8 x y 0x6
  | .subn x y => encXYN 0x8 x y 0x7
  | .shl x y => encXYN 0x8 x y 0xE
  | .sneReg x y => encXYN 0x9 x y 0x0
  | .ldI nnn => encA 0xA nnn
  | .jpV0 nnn => encA 0xB nnn
  | .rnd x nn => encXB 0xC x nn
  | .drw x y n => encXYN 0xD x y n
  | .skp x => encXB 0xE x 0x9E
  | .sknp x => encXB 0xE x 0xA1
  | .ldVxDT x => encXB 0xF x 0x07
  | .ldVxK x => encXB 0xF x 0x0A
  | .ldDTVx x => encXB 0xF x 0x15
  | .ldSTVx x => encXB 0xF x 0x18
  | .addI x => encXB 0xF x 0x1E
  | .ldF x => encXB 0xF x 0x29
  | .ldB x => encXB 0xF x 0x33
  | .storeRegs x => encXB 0xF x 0x55
  | .loadRegs x => encXB 0xF x 0x65

/-- The two bytes of a word as memory holds them: high-order byte first (R53, R70). -/
def bytesOfWord (w : Word) : List Byte := [w.extractLsb' 8 8, w.extractLsb' 0 8]

/-- The bytes of an instruction as memory holds them. -/
def encodeBytes (i : Instr) : List Byte := bytesOfWord (encode i)

/-! ### The opcode table's numbering of bits -/

/-- The instruction word whose bits are `w`, bits from `nbits` up being 0. Every row of the table has 16 bits. -/
def tableWord (nbits w : Nat) : Word := BitVec.ofNat 16 (w % 2 ^ nbits)

/-- What the decoder reads from the bytes of a word numbered as `spec/opcode_table.json` numbers it. -/
def decodeTableWord (nbits w : Nat) : Option Instr :=
  match decode (bytesOfWord (tableWord nbits w)) with
  | .ok (i, _) => some i
  | .error _ => none

end Sys2Proof
end

