-- ==== Sys2Proof/Config.lean ====
section
/-! DEFINITION. The parameters of `00_scope.md` R5, and the free values. -/

namespace Sys2Proof.Config

/-- `MEM_SIZE`: addresses 0x000 to 0xFFF exist (R5, R34, R50). -/
abbrev memSize : Nat := 4096

/-- `PROG_BASE`: where a program is loaded and where `pc` starts (R5, R51). -/
abbrev progBase : Nat := 0x200

/-- `PROG_MAX` = `MEM_SIZE` − `PROG_BASE` = 3584 (R5, R244). -/
abbrev progMax : Nat := memSize - progBase

/-- `STACK_DEPTH` (R5, R25). -/
abbrev stackDepth : Nat := 16

/-- `NKEYS` (R5, R30). -/
abbrev numKeys : Nat := 16

/-- `FLAG_REG`: register 0xF doubles as the flag register (R5, R22). -/
abbrev flagReg : RegIdx := 15

/-- `TIMER_HZ`, the nominal rate of `TICK`; no rule reads it (R5, R261). -/
abbrev timerHz : Nat := 60

/-- `INSTR_RATE`: "configurable", no value given, read by no rule (R5, R261). UNVERIFIED, log 27: uninterpreted, so no
proof can lean on a value of it; safe. -/
opaque instrRate : Nat

/-- The random byte of the `n`-th draw (R99, R131). DESIGN CHOICE, log 2: a FREE VALUE without a body, applied to the
counter `State.draws`, so a claim holds for every value of every draw; safe. -/
opaque randomByte : Nat → Byte

end Sys2Proof.Config
end

