-- ==== Sys2Proof/Machine/State.lean ====
section
/-! DEFINITION. The state of the CORE as plain data (`10_state.md`), its reset value, and the reasons a step could stop. -/

namespace Sys2Proof.Machine

/-- Memory: the cells whose byte differs from what an unlisted address reads as, addresses strictly rising (log 7). -/
abbrev Memory := List Host.Cell

/-- The 64×32 framebuffer (R29, R160): row `y` is entry `y`, and bit `x` of a row is the pixel of column `x`, so that
the rows in order are the flat vector of R38. -/
abbrev Framebuffer := Vector (BitVec 64) 32

/-- `fault.kind` (R33, R200). -/
inductive FaultKind where
  /-- Code 0: no fault. -/
  | none
  /-- Code 1, raised before fetch when `pc` ≥ 4095 (R201). -/
  | outOfBoundsFetch
  /-- Code 2, raised by `2NNN` and `0NNN` when `sp` = 16 (R202). -/
  | stackOverflow
  /-- Code 3, raised by `00EE` when `sp` = 0 (R203). -/
  | stackUnderflow
  /-- Code 4, raised at decode by an illegal word (R204). -/
  | illegalInstruction
  /-- Code 5, raised by `FX33`, `FX55`, `FX65` and `DXYN` (R205). -/
  | indexOutOfBounds
  deriving DecidableEq, Repr

/-- The fault record (R33; its layout is the spec's decision D8, log 15). -/
structure FaultRecord where
  kind : FaultKind
  /-- `pc` at the start of the faulting step. -/
  pc : Word
  /-- The instruction word fetched, or 0 where nothing was fetched. -/
  iw : Word
  deriving DecidableEq, Repr

/-- The result of a `LOAD` (R38, R243, R244). -/
inductive LoadResult where
  | ok
  | programTooLarge
  deriving DecidableEq, Repr

/-- The complete state of the CORE (R20), the `LOAD` result port of R38, and the model's own draw counter. -/
structure State where
  /-- 4096 bytes (R34). -/
  mem : Memory
  /-- General registers `x[0]` to `x[15]`; `x[15]` doubles as the flag register (R21, R22). -/
  x : Vector Byte 16
  /-- Index register (R23). -/
  I : Word
  /-- Program counter (R24). -/
  pc : Word
  /-- Call stack (R25). -/
  stack : Vector Word 16
  /-- Number of stack entries in use, 0..16 (R26). -/
  sp : Fin 17
  /-- Delay timer (R27). -/
  dt : Byte
  /-- Sound timer (R28). -/
  st : Byte
  /-- Framebuffer (R29). -/
  fb : Framebuffer
  /-- Key latch, `true` for pressed (R30). -/
  key : Vector Bool 16
  /-- The register that waits for a key release (R31). -/
  waiting : Option RegIdx
  /-- Set by every fatal fault (R32). -/
  halted : Bool
  /-- The last fatal fault (R33). -/
  fault : FaultRecord
  /-- Output port: the result of the most recent `LOAD` (R38); `none` before the first (DESIGN CHOICE, log 5). -/
  loadResult : Option LoadResult
  /-- THE MODEL'S OWN: how many random bytes have been drawn; it indexes the free value `Config.randomByte` (DESIGN
  CHOICE, log 2 and log 3). -/
  draws : Nat
  deriving DecidableEq, Repr

/-- Reasons for which a step could stop outside the architecture. The five fatal faults of R200 are NOT here: the spec
describes their entry (R96, R207), so they are next states with `halted` set. -/
inductive Fault where
  /-- A memory primitive was called for an access that reaches address `addr` ≥ 4096, which does not exist (R34, R50).
  Raised by `State.memRead` and `State.memWrite` in `Machine/Ops.lean`. Safe: the model stops. By R8 and R56 every rule
  checks the bound first, so no step answers this (DESIGN CHOICE, log 6). -/
  | outsideMemory (addr : Nat)
  deriving DecidableEq, Repr

/-- Reasons for which the model gives an instruction no meaning. -/
inductive Refusal where
  /-- Raised by an arm of `exec` whose instruction has no meaning yet. No arm is left in that case. Safe. -/
  | notModelled (mnemonic : String)
  deriving DecidableEq, Repr

/-- What a step or an execute stage answers. -/
abbrev Result := Host.Outcome State Fault Refusal

/-- The empty fault record (R39). -/
def FaultRecord.empty : FaultRecord := ⟨.none, 0, 0⟩

/-- The machine right after reset (R39, R242): everything 0, `pc` = 0x200, no wait, not halted, no fault. `loadResult`
and `draws` are DESIGN CHOICES (log 5, log 3). -/
def State.reset : State where
  mem := []
  x := Vector.replicate 16 0
  I := 0
  pc := 0x200
  stack := Vector.replicate 16 0
  sp := 0
  dt := 0
  st := 0
  fb := Vector.replicate 32 0
  key := Vector.replicate 16 false
  waiting := none
  halted := false
  fault := FaultRecord.empty
  loadResult := none
  draws := 0

end Sys2Proof.Machine
end

