-- ==== Sys2Proof/Machine/Ops.lean ====
section
/-! DEFINITION. The shared operations over memory, registers, stack, framebuffer and key latch, and the taking of a
fatal fault (`00_scope.md` R8, `10_state.md`, `20_memory.md`, `60_exceptions.md` R207). -/

namespace Sys2Proof.Machine

/-! ### Memory -/

/-- What an address that is not listed reads as: 0, the value of every byte at reset (R39). -/
def unlistedByte : Byte := 0

/-- The canonical form (log 7): addresses strictly rising, all of them in the space, no cell equal to what an unlisted
address reads as. -/
abbrev Memory.wf (m : Memory) : Prop :=
  m.Pairwise (fun c d => c.1 < d.1) ∧ ∀ c ∈ m, c.1 < Config.memSize ∧ c.2 ≠ unlistedByte

/-- The byte at an address. -/
def Memory.read : Memory → Nat → Byte
  | [], _ => unlistedByte
  | (b, v) :: rest, a => if a = b then v else Memory.read rest a

/-- Puts a cell in before the first cell with a higher address. -/
def Memory.insertCell (a : Nat) (v : Byte) : Memory → Memory
  | [] => [(a, v)]
  | (b, u) :: rest => if a < b then (a, v) :: (b, u) :: rest else (b, u) :: Memory.insertCell a v rest

/-- Writes one byte, keeping the canonical form: the value an unlisted address reads as removes the cell. -/
def Memory.write (m : Memory) (a : Nat) (v : Byte) : Memory :=
  let others := m.filter (fun c => c.1 != a)
  if v = unlistedByte then others else Memory.insertCell a v others

/-- `n` bytes at ascending addresses (R54). -/
def Memory.readBytes (m : Memory) (base n : Nat) : List Byte := (List.range n).map (fun k => m.read (base + k))

/-- Bytes written at ascending addresses (R54). -/
def Memory.writeBytes (m : Memory) (base : Nat) : List Byte → Memory
  | [] => m
  | v :: vs => Memory.writeBytes (m.write base v) (base + 1) vs

/-- `MemRead` (R8), byte by byte: every address of the access must exist. -/
def State.memRead (s : State) (base n : Nat) : Except Fault (List Byte) :=
  if n = 0 ∨ base + n ≤ Config.memSize then .ok (s.mem.readBytes base n) else .error (.outsideMemory (base + n - 1))

/-- `MemWrite` (R8), byte by byte: every address of the access must exist. -/
def State.memWrite (s : State) (base : Nat) (bytes : List Byte) : Except Fault State :=
  if bytes = [] ∨ base + bytes.length ≤ Config.memSize then
    .ok { s with mem := s.mem.writeBytes base bytes }
  else .error (.outsideMemory (base + bytes.length - 1))

/-- Goes on with what a memory primitive gives. -/
def access {α : Type} (r : Except Fault α) (k : α → Result) : Result :=
  match r with
  | .ok a => k a
  | .error f => .fault f

/-! ### General registers (R21): none hard-wired, none banked -/

/-- Reads `x[i]`. -/
def State.reg (s : State) (i : RegIdx) : Byte := s.x[i]

/-- Writes `x[i]`. -/
def State.setReg (s : State) (i : RegIdx) (v : Byte) : State := { s with x := s.x.set i.val v i.isLt }

/-- Writes `x[i]`, `x[i+1]`, … in ascending order from a list of bytes; registers past the list keep their value. -/
def putRegs (i : Nat) : List Byte → Vector Byte 16 → Vector Byte 16
  | [], x => x
  | v :: vs, x => putRegs (i + 1) vs (x.setIfInBounds i v)

/-! ### Program counter -/

/-- The advance of R93, and the second advance of a skip (R98). -/
def State.advance (s : State) : State := { s with pc := s.pc + 2 }

/-- A skip instruction whose condition is `c` (R98). -/
def State.skipIf (s : State) (c : Bool) : State := if c then s.advance else s

/-- A jump. -/
def State.jump (s : State) (target : Word) : State := { s with pc := target }

/-! ### Call stack (R25, R26; slot order and width are the spec's decision D3, log 10) -/

/-- Push: writes `stack[sp]`, then increments `sp`; `none` when the stack is full. -/
def State.push (s : State) (v : Word) : Option State :=
  if h : s.sp.val < Config.stackDepth then
    some { s with stack := s.stack.set s.sp.val v h, sp := ⟨s.sp.val + 1, Nat.succ_lt_succ h⟩ }
  else none

/-- Pop: decrements `sp`, then reads `stack[sp]`, whose contents stay; `none` when the stack is empty. -/
def State.pop (s : State) : Option (Word × State) :=
  if h : 0 < s.sp.val then
    some (s.stack[s.sp.val - 1]'(by omega), { s with sp := ⟨s.sp.val - 1, by omega⟩ })
  else none

/-! ### Framebuffer and key latch -/

/-- `fb[y][x]`. -/
def Framebuffer.pixel (fb : Framebuffer) (x : Fin 64) (y : Fin 32) : Bool := fb[y].getLsbD x

/-- `fb[y][x] <- fb[y][x] XOR bit` (R165). -/
def Framebuffer.xorPixel (fb : Framebuffer) (x : Fin 64) (y : Fin 32) (bit : Bool) : Framebuffer :=
  if bit then fb.set y.val (fb[y] ^^^ BitVec.twoPow 64 x.val) y.isLt else fb

/-- Every pixel off. -/
def Framebuffer.blank : Framebuffer := Vector.replicate 32 0

/-- `key[id] <- v` for id in 0..15; any other id is ignored (R37, R216, R217). -/
def State.setKey (s : State) (id : Nat) (v : Bool) : State := { s with key := s.key.setIfInBounds id v }

/-! ### Fatal faults

There is no return from a fault to stand beside the entry: "There is no trap return" (R211), and only `RESET`
(`Machine/Events.lean`) leaves the Halted state. -/

/-- The code of a fault kind (R33, R200; the numbers are the spec's decision D8, log 15). -/
def FaultKind.code : FaultKind → BitVec 3
  | .none => 0
  | .outOfBoundsFetch => 1
  | .stackOverflow => 2
  | .stackUnderflow => 3
  | .illegalInstruction => 4
  | .indexOutOfBounds => 5

/-- Fault entry (R207): `halted` <- 1, `fault` <- (kind, `pc` of the start of the step, word). Nothing else changes and
control goes nowhere. -/
def State.takeFault (s : State) (k : FaultKind) (at_ iw : Word) : State :=
  { s with halted := true, fault := ⟨k, at_, iw⟩ }

/-- `raise K` in the execute stage of `i` (R96). The stage is entered with `pc` at start + 2, so the start of the step
is `pc` − 2; the word fetched is the encoding of `i`, since no two words decode to one instruction (DEDUCED, log 4). -/
def raise (k : FaultKind) (i : Instr) (s : State) : Result := .next (s.takeFault k (s.pc - 2) (encode i))

end Sys2Proof.Machine
end

