-- ==== Sys2Proof/Machine/Flags.lean ====
section
/-! DEFINITION. Every flag outcome of `10_state.md` R22: `x[15]` is the flag register, there is no other. -/

namespace Sys2Proof.Machine

/-- A flag as the byte written to `x[15]`: always 0 or 1 (R22). -/
def flagByte (b : Bool) : Byte := if b then 1 else 0

/-- Carry of `8XY4`: the true sum exceeds 255 (R126). -/
def carry (a b : Byte) : Bool := decide (255 < a.toNat + b.toNat)

/-- No-borrow of `a` − `b`: `a` ≥ `b` (R127, R129, R132). -/
def noBorrow (a b : Byte) : Bool := decide (b.toNat ≤ a.toNat)

/-- The bit `8XY6` shifts out: bit 0 before the shift (R128). -/
def shrOut (a : Byte) : Bool := a.getLsbD 0

/-- The bit `8XYE` shifts out: bit 7 before the shift (R130). -/
def shlOut (a : Byte) : Bool := a.getLsbD 7

/-- The two writes of a flag-writing instruction: first `x[15]` <- flag, then `x[X]` <- result, both computed beforehand,
so with X = 0xF the result remains (R133; the spec's decision D6, log 13). -/
def State.setFlagThenResult (s : State) (x : RegIdx) (flag : Bool) (result : Byte) : State :=
  (s.setReg Config.flagReg (flagByte flag)).setReg x result

/-- One pixel of R162 (R165): the pixel is XORed with the sprite bit; a collision is recorded when the pixel was on
before and the sprite bit is 1. -/
def plotDot (px : Fin 64) (py : Fin 32) (bit : Bool) (acc : Framebuffer × Bool) : Framebuffer × Bool :=
  (acc.1.xorPixel px py bit, acc.2 || (bit && acc.1.pixel px py))

end Sys2Proof.Machine
end

