-- ==== Sys2Proof/Machine/Operands.lean ====
section
/-! DEFINITION. The operand forms: immediates (`30_encoding.md` R73), the address through `I` (`43_index_memory.md`
R146), register lists, decimal digits, the key a register names, and the pixels of a sprite. -/

namespace Sys2Proof.Machine

/-- `NNN` as an address: the unsigned number its bits spell (R73). -/
def addrWord (nnn : Addr) : Word := nnn.setWidth 16

/-- A register value added as an unsigned number (R132). -/
def byteWord (v : Byte) : Word := v.setWidth 16

/-- Whether an access of `n` bytes through `I` stays inside memory: its highest address `I` + n − 1, a true sum that is
never truncated, is below 4096 (R56, R146; true sums are the spec's decision D11, log 18). An access of no bytes reaches
no address. -/
def State.inBounds (s : State) (n : Nat) : Bool := n == 0 || decide (s.I.toNat + n ≤ Config.memSize)

/-- The registers `x[0]`, …, `x[X]` that `FX55` and `FX65` name (R73): X + 1 of them. -/
def State.regsUpTo (s : State) (x : RegIdx) : List Byte := s.x.toList.take (x.val + 1)

/-- Hundreds, tens and ones of a byte (R143). -/
def decimalDigits (v : Byte) : List Byte := [v / 100, v / 10 % 10, v % 10]

/-- `pressed(v)` (R186): a register value above 15 names no key and reads as not pressed (the spec's decision D12,
log 19). -/
def State.pressed (s : State) (v : Byte) : Bool := (s.key[v.toNat]?).getD false

/-- One pixel of a sprite: where it falls, and its sprite bit. -/
structure Dot where
  px : Fin 64
  py : Fin 32
  bit : Bool
  deriving DecidableEq, Repr

/-- Column `c` of sprite row `r`, whose byte is `b`: at x = (vx + c) mod 64, y = (vy + r) mod 32 (R164), its bit is bit
7 − c of the byte (R163). Which register is horizontal and which bit is leftmost are the spec's decision D9 (log 16). -/
def spriteDot (vx vy : Byte) (r : Nat) (b : Byte) (c : Nat) : Dot :=
  ⟨Fin.ofNat 64 (vx.toNat + c), Fin.ofNat 32 (vy.toNat + r), b.getLsbD (7 - c)⟩

/-- The pixels of a sprite whose first row is number `r`, in the order of R162: row by row, in a row by column. -/
def spriteDots (vx vy : Byte) (r : Nat) : List Byte → List Dot
  | [] => []
  | b :: bs => (List.range 8).map (spriteDot vx vy r b) ++ spriteDots vx vy (r + 1) bs

end Sys2Proof.Machine
end

