-- ==== Sys2Proof/Machine/Alu.lean ====
section
/-! DEFINITION. Register load, arithmetic, logic, shift and random (`42_alu.md`). Operands are latched before any write
(R94); arithmetic is modulo 256 (R132). -/

namespace Sys2Proof.Machine

/-- `6XNN` (R120). -/
def execLdImm (x : RegIdx) (nn : Byte) (s : State) : Result := .next (s.setReg x nn)

/-- `7XNN` (R121): no flag. -/
def execAddImm (x : RegIdx) (nn : Byte) (s : State) : Result := .next (s.setReg x (s.reg x + nn))

/-- `8XY0` (R122). -/
def execLdReg (x y : RegIdx) (s : State) : Result := .next (s.setReg x (s.reg y))

/-- `8XY1` (R123). -/
def execOrReg (x y : RegIdx) (s : State) : Result := .next (s.setReg x (s.reg x ||| s.reg y))

/-- `8XY2` (R124). -/
def execAndReg (x y : RegIdx) (s : State) : Result := .next (s.setReg x (s.reg x &&& s.reg y))

/-- `8XY3` (R125). -/
def execXorReg (x y : RegIdx) (s : State) : Result := .next (s.setReg x (s.reg x ^^^ s.reg y))

/-- `8XY4` (R126). -/
def execAddReg (x y : RegIdx) (s : State) : Result :=
  .next (s.setFlagThenResult x (carry (s.reg x) (s.reg y)) (s.reg x + s.reg y))

/-- `8XY5` (R127). -/
def execSub (x y : RegIdx) (s : State) : Result :=
  .next (s.setFlagThenResult x (noBorrow (s.reg x) (s.reg y)) (s.reg x - s.reg y))

/-- `8XY7` (R129). -/
def execSubn (x y : RegIdx) (s : State) : Result :=
  .next (s.setFlagThenResult x (noBorrow (s.reg y) (s.reg x)) (s.reg y - s.reg x))

/-- `8XY6` (R128): shifts `x[X]` in place; `x[Y]` is neither read nor written. -/
def execShr (x _y : RegIdx) (s : State) : Result :=
  .next (s.setFlagThenResult x (shrOut (s.reg x)) (s.reg x >>> 1))

/-- `8XYE` (R130): shifts `x[X]` in place; `x[Y]` is neither read nor written. -/
def execShl (x _y : RegIdx) (s : State) : Result :=
  .next (s.setFlagThenResult x (shlOut (s.reg x)) (s.reg x <<< 1))

/-- `CXNN` with the step's input `rnd` given (R131, R99). The draw counter moves on, so that two executions draw
independently. -/
def rndWith (rnd : Byte) (x : RegIdx) (nn : Byte) (s : State) : Result :=
  .next { s.setReg x (rnd &&& nn) with draws := s.draws + 1 }

/-- `CXNN` (R131): the byte is a free value (log 2). -/
def execRnd (x : RegIdx) (nn : Byte) (s : State) : Result := rndWith (Config.randomByte s.draws) x nn s

end Sys2Proof.Machine
end

