-- ==== Sys2Proof/Machine/Cycle.lean ====
section
/-! DEFINITION. The instruction step common to all instructions (`40_step_cycle.md` R90 to R99), over any execute
stage. -/

namespace Sys2Proof.Machine

/-- The three run states (R214). -/
inductive RunState where
  | running
  | waiting
  | halted
  deriving DecidableEq, Repr

/-- The run state, a function of `halted` and `waiting` (R35). -/
def State.runState (s : State) : RunState :=
  if s.halted then .halted else if s.waiting.isSome then .waiting else .running

/-- Fetch (R91, R92): the big-endian word at `pc`, at any parity of `pc` (R55; the spec's decision D2, log 9); `none`
when `pc` ≥ 4095. -/
def State.fetchWord (s : State) : Option Word :=
  if s.pc.toNat + 1 < Config.memSize then some (wordOfBytes (s.mem.read s.pc.toNat) (s.mem.read (s.pc.toNat + 1)))
  else none

/-! ### The end of a run

The instruction set has no halt instruction, and R248 asks the model to define the end of a run. DESIGN CHOICE, log 30:
the definition R248 and the spec's decision D22 give as their instance. -/

/-- How a run stands. -/
inductive RunVerdict where
  /-- Neither ended nor failed. -/
  | unfinished
  /-- The normal end. -/
  | ended
  /-- The machine is Halted: a failed run, never a normal end. -/
  | failed
  deriving DecidableEq, Repr

/-- `pc` is at `a` and the word there is `1NNN` with NNN = `a`, a jump to itself. -/
def State.atSelfJump (a : Addr) (s : State) : Bool :=
  s.pc == addrWord a && s.fetchWord == some (encode (.jp a))

/-- The verdict on a run that stands at `s`, its stated end address being `a` (R248; log 30): Running at the self-jump at
`a` is the end, Halted is failure. -/
def State.verdict (a : Addr) (s : State) : RunVerdict :=
  match s.runState with
  | .halted => .failed
  | .waiting => .unfinished
  | .running => if s.atSelfJump a then .ended else .unfinished

/-- What follows a fetch of `iw` (R93, R95): advance, decode, execute; an illegal word raises `IllegalInstruction` with
`pc` advanced (R81, R96). -/
def decodeAndExecute (ex : Instr → State → Result) (iw : Word) (s : State) : Result :=
  match decodeWord iw with
  | .ok i => ex i s.advance
  | .error _ => .next (s.advance.takeFault .illegalInstruction s.pc iw)

/-- One `STEP` (R97): the gate (R90), the fetch check (R91, which leaves `pc` where it was), then R92 to R96. -/
def cycle (ex : Instr → State → Result) (s : State) : Result :=
  if s.runState = .running then
    match s.fetchWord with
    | some iw => decodeAndExecute ex iw s
    | none => .next (s.takeFault .outOfBoundsFetch s.pc 0)
  else .next s

/-- An execute stage with the random input `rnd` supplied: only `CXNN` uses it (R99). -/
def withRnd (rnd : Byte) (ex : Instr → State → Result) (i : Instr) (s : State) : Result :=
  match i with
  | .rnd x nn => rndWith rnd x nn s
  | other => ex other s

/-- `s` made Running if it is not (log 8). -/
def State.madeRunning (s : State) : State :=
  if s.runState = .running then s else { s with halted := false, waiting := none, fault := FaultRecord.empty }

/-- `s` with `pc` at 0x200 if nothing can be fetched where it is (log 8). -/
def State.madeFetchable (s : State) : State :=
  if s.pc.toNat + 1 < Config.memSize then s else s.jump (BitVec.ofNat 16 Config.progBase)

/-- `s` with the word `w` placed at `pc`, big-endian. -/
def State.placeWord (s : State) (w : Word) : State := { s with mem := s.mem.writeBytes s.pc.toNat (bytesOfWord w) }

end Sys2Proof.Machine
end

