-- ==== Sys2Proof/Machine/ControlFlow.lean ====
section
/-! DEFINITION. Return, calls, jumps and register skips (`41_control_flow.md`). Every meaning is the execute stage: it
is entered with `pc` at start + 2 (R93). -/

namespace Sys2Proof.Machine

/-- `00EE` (R100). -/
def execRet (s : State) : Result :=
  match s.pop with
  | none => raise .stackUnderflow .ret s
  | some (target, t) => .next (t.jump target)

/-- The call of R103: the overflow test comes before the push (the spec's decision D7, log 14). -/
def callTo (i : Instr) (nnn : Addr) (s : State) : Result :=
  match s.push s.pc with
  | none => raise .stackOverflow i s
  | some t => .next (t.jump (addrWord nnn))

/-- `0NNN` (R101): a call with exactly the semantics of `2NNN` (the overflow test is the spec's decision D4, log 11). -/
def execSys (nnn : Addr) (s : State) : Result := callTo (.sys nnn) nnn s

/-- `2NNN` (R103). -/
def execCall (nnn : Addr) (s : State) : Result := callTo (.call nnn) nnn s

/-- `1NNN` (R102). -/
def execJp (nnn : Addr) (s : State) : Result := .next (s.jump (addrWord nnn))

/-- `BNNN` (R108): `x[0]` + NNN, not reduced; at most 0x10FE, so 16 bits hold it. -/
def execJpV0 (nnn : Addr) (s : State) : Result := .next (s.jump (byteWord (s.reg 0) + addrWord nnn))

/-- `3XNN` (R104). -/
def execSeImm (x : RegIdx) (nn : Byte) (s : State) : Result := .next (s.skipIf (s.reg x == nn))

/-- `4XNN` (R105). -/
def execSneImm (x : RegIdx) (nn : Byte) (s : State) : Result := .next (s.skipIf (s.reg x != nn))

/-- `5XY0` (R106). -/
def execSeReg (x y : RegIdx) (s : State) : Result := .next (s.skipIf (s.reg x == s.reg y))

/-- `9XY0` (R107). -/
def execSneReg (x y : RegIdx) (s : State) : Result := .next (s.skipIf (s.reg x != s.reg y))

end Sys2Proof.Machine
end

