-- ==== Sys2Proof/Machine/Display.lean ====
section
/-! DEFINITION. Framebuffer instructions (`44_display.md`). -/

namespace Sys2Proof.Machine

/-- `00E0` (R161). -/
def execCls (s : State) : Result := .next { s with fb := Framebuffer.blank }

/-- The loop of R162 over the pixels of a sprite, the collision flag starting at 0. -/
def drawDots (fb : Framebuffer) (dots : List Dot) : Framebuffer × Bool :=
  dots.foldl (fun acc d => plotDot d.px d.py d.bit acc) (fb, false)

/-- `DXYN` (R162): the bound test (the spec's decision D10, log 17), the pixels, then `x[15]` <- collision, always. With
N = 0 it draws nothing and cannot fault. -/
def execDrw (x y : RegIdx) (n : Nibble) (s : State) : Result :=
  if s.inBounds n.toNat then
    access (s.memRead s.I.toNat n.toNat) fun rows =>
      let drawn := drawDots s.fb (spriteDots (s.reg x) (s.reg y) 0 rows)
      .next ({ s with fb := drawn.1 }.setReg Config.flagReg (flagByte drawn.2))
  else raise .indexOutOfBounds (.drw x y n) s

end Sys2Proof.Machine
end

