-- ==== Sys2Proof/Machine/IndexMemory.lean ====
section
/-! DEFINITION. Index register arithmetic and memory transfer (`43_index_memory.md`). None of these writes `x[15]` as a
flag. Every bound is tested before anything is written (R56). -/

namespace Sys2Proof.Machine

/-- `ANNN` (R140). -/
def execLdI (nnn : Addr) (s : State) : Result := .next { s with I := addrWord nnn }

/-- `FX1E` (R141): modulo 65536, no flag (the width of `I` is the spec's decision D11, log 18). -/
def execAddI (x : RegIdx) (s : State) : Result := .next { s with I := s.I + byteWord (s.reg x) }

/-- `FX29` (R142): the whole 8-bit value times 5. No glyph is placed there (log 22). -/
def execLdF (x : RegIdx) (s : State) : Result := .next { s with I := byteWord (s.reg x) * 5 }

/-- `FX33` (R143). -/
def execLdB (x : RegIdx) (s : State) : Result :=
  if s.inBounds 3 then access (s.memWrite s.I.toNat (decimalDigits (s.reg x))) .next
  else raise .indexOutOfBounds (.ldB x) s

/-- The post-increment of `FX55` and `FX65`: `I` + X + 1 modulo 65536 (R144, R145). -/
def State.bumpI (s : State) (x : RegIdx) : State := { s with I := s.I + BitVec.ofNat 16 (x.val + 1) }

/-- `FX55` (R144). -/
def execStoreRegs (x : RegIdx) (s : State) : Result :=
  if s.inBounds (x.val + 1) then access (s.memWrite s.I.toNat (s.regsUpTo x)) (fun t => .next (t.bumpI x))
  else raise .indexOutOfBounds (.storeRegs x) s

/-- `FX65` (R145). -/
def execLoadRegs (x : RegIdx) (s : State) : Result :=
  if s.inBounds (x.val + 1) then
    access (s.memRead s.I.toNat (x.val + 1)) (fun bytes => .next ({ s with x := putRegs 0 bytes s.x }.bumpI x))
  else raise .indexOutOfBounds (.loadRegs x) s

end Sys2Proof.Machine
end

