-- ==== Sys2Proof/Machine/TimersKeys.lean ====
section
/-! DEFINITION. Timer access, key skips and key wait (`45_timers_keys.md`). None of these can fault. -/

namespace Sys2Proof.Machine

/-- `FX07` (R180). -/
def execLdVxDT (x : RegIdx) (s : State) : Result := .next (s.setReg x s.dt)

/-- `FX15` (R181). -/
def execLdDTVx (x : RegIdx) (s : State) : Result := .next { s with dt := s.reg x }

/-- `FX18` (R182). -/
def execLdSTVx (x : RegIdx) (s : State) : Result := .next { s with st := s.reg x }

/-- `EX9E` (R183). -/
def execSkp (x : RegIdx) (s : State) : Result := .next (s.skipIf (s.pressed (s.reg x)))

/-- `EXA1` (R184). -/
def execSknp (x : RegIdx) (s : State) : Result := .next (s.skipIf (!s.pressed (s.reg x)))

/-- `FX0A` (R185): writes only `waiting`; the register is written by the `LIFT` that ends the wait (R218). -/
def execLdVxK (x : RegIdx) (s : State) : Result := .next { s with waiting := some x }

end Sys2Proof.Machine
end

