-- ==== Sys2Proof/Machine/Step.lean ====
section
/-! DEFINITION. The event `STEP` (`40_step_cycle.md` R90 to R97) and the placing of an instruction where it fetches. -/

namespace Sys2Proof.Machine

/-- The event `STEP`, its random input a free value (log 2). -/
def step (s : State) : Host.Outcome State Fault Refusal := cycle exec s

/-- The event `STEP(rnd)`, its random input given (R37, R99). -/
def stepRnd (rnd : Byte) (s : State) : Host.Outcome State Fault Refusal := cycle (withRnd rnd exec) s

/-- `s` with the instruction word of table bits `w` where the very next step fetches (log 8): at `pc`. A machine that is
Halted or Waiting is made Running, and a `pc` that nothing can be fetched from is set to 0x200; nothing else changes. -/
def State.withFetchWord (s : State) (nbits w : Nat) : State :=
  s.madeRunning.madeFetchable.placeWord (tableWord nbits w)

end Sys2Proof.Machine
end

