-- ==== Sys2Proof/Machine/Events.lean ====
section
/-! DEFINITION. The host's six events (`00_scope.md` R6, `10_state.md` R37), each one atomic transition, in any order
(the spec's decision D1, log 1), and the outputs the host samples between them (R38). -/

namespace Sys2Proof.Machine

/-- An event the host delivers (R6). -/
inductive Event where
  /-- `STEP(rnd)`. -/
  | step (rnd : Byte)
  | tick
  /-- `PRESS(id)`; only 0..15 are recognized. -/
  | press (id : Nat)
  /-- `LIFT(id)`; only 0..15 are recognized. -/
  | lift (id : Nat)
  /-- `LOAD(bytes)`. -/
  | load (bytes : List Byte)
  | reset
  deriving DecidableEq, Repr

/-- A counter that stops at 0 (R215). -/
def countDown (v : Byte) : Byte := if 0 < v.toNat then v - 1 else v

/-- `TICK` (R215), in every run state (R220; the spec's decision D14, log 21). -/
def State.tick (s : State) : State := { s with dt := countDown s.dt, st := countDown s.st }

/-- `PRESS(id)` (R216): an id above 15 is ignored (R37; the spec's decision D20, log 26). -/
def State.press (s : State) (id : Nat) : State := s.setKey id true

/-- The end of a wait (R218): the register the wait named receives the index of the lifted key. -/
def State.resolveWait (s : State) (id : Nat) : State :=
  match s.waiting with
  | some r => { s.setReg r (BitVec.ofNat 8 id) with waiting := none }
  | none => s

/-- `LIFT(id)` (R217, R218): clears the latch bit, then resolves a pending wait, whether or not the bit was set (the
spec's decision D13, log 20); an id above 15 is ignored. -/
def State.lift (s : State) (id : Nat) : State := if id < Config.numKeys then (s.setKey id false).resolveWait id else s

/-- `LOAD(bytes)` (R243, R244): at most 3584 bytes go to 0x200 on and `pc` to 0x200; a longer image changes nothing but
the result port. Nothing else is touched (R245; the spec's decision D17, log 23). -/
def State.load (s : State) (bytes : List Byte) : Result :=
  if bytes.length ≤ Config.progMax then
    access (s.memWrite Config.progBase bytes)
      (fun t => .next { t.jump (BitVec.ofNat 16 Config.progBase) with loadResult := some .ok })
  else .next { s with loadResult := some .programTooLarge }

/-- `RESET` (R240, R241): every field at its reset value. The model's own draw counter goes on, so that draws before and
after a `RESET` stay independent (log 3). -/
def State.resetEvent (s : State) : State := { State.reset with draws := s.draws }

/-- The effect of one event. -/
def deliver (e : Event) (s : State) : Result :=
  match e with
  | .step rnd => stepRnd rnd s
  | .tick => .next s.tick
  | .press id => .next (s.press id)
  | .lift id => .next (s.lift id)
  | .load bytes => s.load bytes
  | .reset => .next s.resetEvent

/-- A finite sequence of events, in order (R6). -/
def deliverAll : List Event → State → Result
  | [], s => .next s
  | e :: es, s =>
    match deliver e s with
    | .next t => deliverAll es t
    | .fault f => .fault f
    | .refused r => .refused r

/-- The verdict on the run of `es` from `s`, its stated end address being `a` (R248; log 30): that of the first state on
the way that has ended or failed, which is where the run stops being watched. A stop of the model itself, which no event
leads to (log 6), would be failure too. -/
def runVerdict (a : Addr) : List Event → State → RunVerdict
  | [], s => s.verdict a
  | e :: es, s =>
    match s.verdict a with
    | .unfinished =>
      match deliver e s with
      | .next t => runVerdict a es t
      | .fault _ => .failed
      | .refused _ => .failed
    | v => v

/-! ### Outputs (R38; their layout is the spec's decision D19, log 25) -/

/-- `tone` = (`st` > 0) (R38, R223). -/
def State.tone (s : State) : Bool := decide (0 < s.st.toNat)

/-- The framebuffer as a flat vector: bit y × 64 + x holds `fb[y][x]` (R38). -/
def Framebuffer.flat (fb : Framebuffer) : BitVec 2048 :=
  (List.finRange 32).foldl (fun (acc : BitVec 2048) y => acc ||| BitVec.setWidth 2048 fb[y] <<< (64 * y.val)) 0

/-- All that the host can see between two events (R38). -/
structure Outputs where
  fb : BitVec 2048
  halted : Bool
  st : Byte
  tone : Bool
  faultKind : BitVec 3
  faultPc : Word
  faultIw : Word
  loadResult : Option LoadResult
  deriving DecidableEq, Repr

/-- The outputs are functions of the state (R38). -/
def State.outputs (s : State) : Outputs where
  fb := s.fb.flat
  halted := s.halted
  st := s.st
  tone := s.tone
  faultKind := s.fault.kind.code
  faultPc := s.fault.pc
  faultIw := s.fault.iw
  loadResult := s.loadResult

end Sys2Proof.Machine
end

