-- ==== Sys2Proof/Safety.lean ====
section
/-! DEFINITION. The terms statements are made in: what an instruction may change, the invariants of `10_state.md` R36,
what a recorded fault says about the state, and reachable states. -/

namespace Sys2Proof.Machine

/-- One observable piece of the state; memory, stack, framebuffer and key latch are taken apart to single cells. -/
inductive Part where
  | byte (a : Nat)
  | reg (i : RegIdx)
  | index
  | pc
  | stackEntry (k : Fin 16)
  | sp
  | dt
  | st
  | pixel (x : Fin 64) (y : Fin 32)
  | key (k : Fin 16)
  | waiting
  | halted
  | fault
  | loadResult
  | draws
  deriving DecidableEq, Repr

/-- Two states hold the same in one part. -/
def Agree (s t : State) : Part → Prop
  | .byte a => t.mem.read a = s.mem.read a
  | .reg i => t.reg i = s.reg i
  | .index => t.I = s.I
  | .pc => t.pc = s.pc
  | .stackEntry k => t.stack[k] = s.stack[k]
  | .sp => t.sp = s.sp
  | .dt => t.dt = s.dt
  | .st => t.st = s.st
  | .pixel x y => t.fb.pixel x y = s.fb.pixel x y
  | .key k => t.key[k] = s.key[k]
  | .waiting => t.waiting = s.waiting
  | .halted => t.halted = s.halted
  | .fault => t.fault = s.fault
  | .loadResult => t.loadResult = s.loadResult
  | .draws => t.draws = s.draws

/-- The frame: from `s` to `t` nothing changes outside the parts `P` names. -/
structure ChangesOnly (s t : State) (P : Part → Prop) : Prop where
  agree : ∀ p, ¬ P p → Agree s t p

/-- The invariants of R36, R33, R25 and the canonical form of memory. -/
structure State.Inv (s : State) : Prop where
  memory : s.mem.wf
  /-- `halted` = 1 if and only if `fault.kind` ≠ 0 (R33). -/
  halted_iff_fault : s.halted = true ↔ s.fault.kind ≠ .none
  /-- No context is recorded where no fault is (R33: the record is written by a fault and cleared by `RESET` only). -/
  empty_record : s.fault.kind = .none → s.fault = FaultRecord.empty
  /-- Not both `halted` = 1 and `waiting` ≠ `none` (R35, R36). -/
  not_both : ¬ (s.halted = true ∧ s.waiting.isSome = true)
  /-- The largest value any rule can give `pc` (R24). -/
  pc_bound : s.pc.toNat ≤ 0x10FE
  /-- The values actually pushed are 2..4096 (R25). -/
  stack_bound : ∀ k : Fin 16, k.val < s.sp.val → 2 ≤ s.stack[k].toNat ∧ s.stack[k].toNat ≤ 4096

/-- The recorded fault tells why the machine halted: R200's table read on a Halted state, in which nothing but `RESET`
changes `sp`, `I` or the record. -/
def State.FaultExplained (s : State) : Prop :=
  match s.fault.kind with
  | .none => True
  | .outOfBoundsFetch => 4095 ≤ s.fault.pc.toNat ∧ s.fault.iw = 0
  | .stackOverflow =>
    s.fault.pc.toNat < 4095 ∧ s.sp.val = 16 ∧
      ∃ nnn, decodeWord s.fault.iw = .ok (.call nnn) ∨ decodeWord s.fault.iw = .ok (.sys nnn)
  | .stackUnderflow => s.fault.pc.toNat < 4095 ∧ s.sp.val = 0 ∧ s.fault.iw = 0x00EE
  | .illegalInstruction => s.fault.pc.toNat < 4095 ∧ ∃ r, decodeWord s.fault.iw = .error r
  | .indexOutOfBounds =>
    s.fault.pc.toNat < 4095 ∧
      ((∃ x, decodeWord s.fault.iw = .ok (.ldB x) ∧ 4096 ≤ s.I.toNat + 2) ∨
       (∃ x, (decodeWord s.fault.iw = .ok (.storeRegs x) ∨ decodeWord s.fault.iw = .ok (.loadRegs x)) ∧
          4096 ≤ s.I.toNat + x.val) ∨
       (∃ x y n, decodeWord s.fault.iw = .ok (.drw x y n) ∧ 1 ≤ n.toNat ∧ 4096 ≤ s.I.toNat + n.toNat - 1))

/-- A state some finite sequence of events leads to from reset (R6, R242). -/
def State.Reachable (s : State) : Prop := ∃ es, deliverAll es State.reset = .next s

/-- `t` is `s`, the state in which an execute stage was entered (`pc` at start + 2), with the fatal fault `k` of the
word `w` taken and nothing else changed (R96, R207). -/
def Faulted (k : FaultKind) (w : Word) (s t : State) : Prop :=
  t.halted = true ∧ t.fault = ⟨k, s.pc - 2, w⟩ ∧ ChangesOnly s t (fun p => p = .halted ∨ p = .fault)

/-- The bit of the sprite of `DXYN` that falls on pixel (px, py), 0 where none falls, in closed form (R163, R164): the
pixel's column in the sprite is (px − x[X]) mod 64 and its row is (py − x[Y]) mod 32. (256 is a multiple of both.) -/
def State.spriteBitAt (s : State) (x y : RegIdx) (n : Nibble) (px : Fin 64) (py : Fin 32) : Bool :=
  let c := (px.val + 256 - (s.reg x).toNat) % 64
  let r := (py.val + 256 - (s.reg y).toNat) % 32
  decide (c < 8) && decide (r < n.toNat) && (s.mem.read (s.I.toNat + r)).getLsbD (7 - c)

/-- Every word whose bits under `mask` are `pattern` decodes to the instruction `i` makes of its fields: the encoding
clause of an instruction's rule. -/
def WordsDecode (mask pattern : Word) (i : Word → Instr) : Prop :=
  ∀ w : Word, w &&& mask = pattern → decodeWord w = .ok (i w)

end Sys2Proof.Machine
end

