-- ==== Sys2Proof/Certificates/Slice0/Obligations.lean ====
section
/-! DEFINITION. The statements for the provers. In a statement about `exec`, `s` is the state in which the execute stage
is entered: its `pc` is start + 2 (`40_step_cycle.md` R93). -/

open Sys2Proof Sys2Proof.Machine

/-! ### Encoding -/

/-- `30_encoding.md`, sections 1 to 3: the bytes of a well-formed instruction decode to it, with every operand, and
nothing after them is consumed. -/
def Obligations.DecodeEncodeRoundTrip : Prop :=
  ∀ (i : Instr) (rest : List Byte), i.wf = true → decode (encodeBytes i ++ rest) = .ok (i, rest)

/-- `30_encoding.md`, sections 1 to 3: a word that decodes is the encoding of what it decodes to, so no two words are one
instruction. -/
def Obligations.EncodeDecodeRoundTrip : Prop :=
  ∀ (w : Word) (i : Instr), decodeWord w = .ok i → i.wf = true ∧ encode i = w

/-- `30_encoding.md`, section 3: the 35 rows of the opcode map. Every word that has a row's fixed bits under the row's
mask decodes to the row's instruction, with the fields at the bits of section 1; in family 0 the two fixed words come
first. -/
def Obligations.OpcodeMapDecodes : Prop :=
  (WordsDecode 0xFFFF 0x00E0 (fun _ => .cls) ∧ WordsDecode 0xFFFF 0x00EE (fun _ => .ret) ∧
    (∀ w : Word, w &&& 0xF000 = 0x0000 → w ≠ 0x00E0#16 → w ≠ 0x00EE#16 → decodeWord w = .ok (.sys (fieldNNN w)))) ∧
  (WordsDecode 0xF000 0x1000 (fun w => .jp (fieldNNN w)) ∧ WordsDecode 0xF000 0x2000 (fun w => .call (fieldNNN w)) ∧
    WordsDecode 0xF000 0xA000 (fun w => .ldI (fieldNNN w)) ∧ WordsDecode 0xF000 0xB000 (fun w => .jpV0 (fieldNNN w))) ∧
  (WordsDecode 0xF000 0x3000 (fun w => .seImm (fieldX w) (fieldNN w)) ∧
    WordsDecode 0xF000 0x4000 (fun w => .sneImm (fieldX w) (fieldNN w)) ∧
    WordsDecode 0xF000 0x6000 (fun w => .ldImm (fieldX w) (fieldNN w)) ∧
    WordsDecode 0xF000 0x7000 (fun w => .addImm (fieldX w) (fieldNN w)) ∧
    WordsDecode 0xF000 0xC000 (fun w => .rnd (fieldX w) (fieldNN w))) ∧
  (WordsDecode 0xF00F 0x5000 (fun w => .seReg (fieldX w) (fieldY w)) ∧
    WordsDecode 0xF00F 0x9000 (fun w => .sneReg (fieldX w) (fieldY w)) ∧
    WordsDecode 0xF00F 0x8000 (fun w => .ldReg (fieldX w) (fieldY w)) ∧
    WordsDecode 0xF00F 0x8001 (fun w => .orReg (fieldX w) (fieldY w)) ∧
    WordsDecode 0xF00F 0x8002 (fun w => .andReg (fieldX w) (fieldY w)) ∧
    WordsDecode 0xF00F 0x8003 (fun w => .xorReg (fieldX w) (fieldY w)) ∧
    WordsDecode 0xF00F 0x8004 (fun w => .addReg (fieldX w) (fieldY w)) ∧
    WordsDecode 0xF00F 0x8005 (fun w => .sub (fieldX w) (fieldY w)) ∧
    WordsDecode 0xF00F 0x8006 (fun w => .shr (fieldX w) (fieldY w)) ∧
    WordsDecode 0xF00F 0x8007 (fun w => .subn (fieldX w) (fieldY w)) ∧
    WordsDecode 0xF00F 0x800E (fun w => .shl (fieldX w) (fieldY w))) ∧
  WordsDecode 0xF000 0xD000 (fun w => .drw (fieldX w) (fieldY w) (fieldN w)) ∧
  (WordsDecode 0xF0FF 0xE09E (fun w => .skp (fieldX w)) ∧ WordsDecode 0xF0FF 0xE0A1 (fun w => .sknp (fieldX w)) ∧
    WordsDecode 0xF0FF 0xF007 (fun w => .ldVxDT (fieldX w)) ∧ WordsDecode 0xF0FF 0xF00A (fun w => .ldVxK (fieldX w)) ∧
    WordsDecode 0xF0FF 0xF015 (fun w => .ldDTVx (fieldX w)) ∧ WordsDecode 0xF0FF 0xF018 (fun w => .ldSTVx (fieldX w)) ∧
    WordsDecode 0xF0FF 0xF01E (fun w => .addI (fieldX w)) ∧ WordsDecode 0xF0FF 0xF029 (fun w => .ldF (fieldX w)) ∧
    WordsDecode 0xF0FF 0xF033 (fun w => .ldB (fieldX w)) ∧
    WordsDecode 0xF0FF 0xF055 (fun w => .storeRegs (fieldX w)) ∧
    WordsDecode 0xF0FF 0xF065 (fun w => .loadRegs (fieldX w)))

/-- The illegal words are exactly those of `30_encoding.md` section 4. That a word with unmatched low bits is illegal is
the spec's decision D5 (log 12). -/
def Obligations.IllegalWordsAreTheListed : Prop :=
  ∀ w : Word, (∃ r, decodeWord w = .error r) ↔
    ((fieldOp w = 0x5#4 ∨ fieldOp w = 0x9#4) ∧ fieldN w ≠ 0x0#4) ∨
    (fieldOp w = 0x8#4 ∧ fieldN w ∈ [0x8#4, 0x9#4, 0xA#4, 0xB#4, 0xC#4, 0xD#4, 0xF#4]) ∨
    (fieldOp w = 0xE#4 ∧ fieldNN w ∉ [0x9E#8, 0xA1#8]) ∨
    (fieldOp w = 0xF#4 ∧ fieldNN w ∉ [0x07#8, 0x0A#8, 0x15#8, 0x18#8, 0x1E#8, 0x29#8, 0x33#8, 0x55#8, 0x65#8])

/-- Eight words written out from the patterns of `30_encoding.md` section 3 (`6A02`, `8014` and `8015` are the source's
own examples), and two that match none. That unmatched low bits make a word illegal, and so that 5011 and FFFF are
rejected, is the spec's decision D5 (log 12). -/
def Obligations.SampleWordsDecode : Prop :=
  decodeWord 0x6A02 = .ok (.ldImm 10 0x02) ∧ decodeWord 0x8014 = .ok (.addReg 0 1) ∧
  decodeWord 0x8015 = .ok (.sub 0 1) ∧ decodeWord 0x220C = .ok (.call 0x20C) ∧ decodeWord 0x00E1 = .ok (.sys 0x0E1) ∧
  decodeWord 0xD012 = .ok (.drw 0 1 2) ∧ decodeWord 0xE19E = .ok (.skp 1) ∧ decodeWord 0xF265 = .ok (.loadRegs 2) ∧
  decodeWord 0x5011 = .error .family5 ∧ decodeWord 0xFFFF = .error .familyF

/-! ### The step -/

/-- R92, R93: in the Running state with `pc` ≤ 4094 the word fetched is `mem[pc]` × 256 + `mem[pc+1]`, at any parity of
`pc` (R92: "No alignment is required"; log 9); then `pc` is advanced by 2, to at most 4096; then the instruction the
word decodes to runs. -/
def Obligations.StepRunsDecodedInstruction : Prop :=
  ∀ (s : State) (i : Instr), s.runState = .running → s.pc.toNat ≤ 4094 →
    decodeWord (BitVec.ofNat 16 ((s.mem.read s.pc.toNat).toNat * 256 + (s.mem.read (s.pc.toNat + 1)).toNat)) = .ok i →
    step s = exec i { s with pc := s.pc + 2 } ∧ (s.pc + 2).toNat = s.pc.toNat + 2

/-- The instruction word of the host's numbering, placed by `withFetchWord`, is what the very next step runs, from every
state; in a Running machine whose `pc` can be fetched from, only the two bytes at `pc` change (the placing is the model's
own, log 8). -/
def Obligations.PlacedWordRunsNext : Prop :=
  ∀ (s : State) (w : Nat) (i : Instr), decodeTableWord 16 w = some i →
    step (s.withFetchWord 16 w) = exec i (s.withFetchWord 16 w).advance ∧
    (s.runState = .running → s.pc.toNat ≤ 4094 →
      ChangesOnly s (s.withFetchWord 16 w) (fun p => p = .byte s.pc.toNat ∨ p = .byte (s.pc.toNat + 1)))

/-- R97: a `STEP`, whatever its random input, maps a state to a state; it is the identity when the state is Halted or
Waiting; otherwise it runs at most one instruction: the one the word fetched decodes to, the same for every random input,
or none, where nothing can be fetched or the word is illegal, and then it halts. -/
def Obligations.StepMapsStateToState : Prop :=
  ∀ s : State,
    (s.runState ≠ .running → step s = .next s ∧ ∀ rnd, stepRnd rnd s = .next s) ∧
    (∃ t, step s = .next t) ∧ (∀ rnd, ∃ t, stepRnd rnd s = .next t) ∧
    (s.runState = .running →
      (∃ w i, s.fetchWord = some w ∧ decodeWord w = .ok i ∧ step s = exec i s.advance ∧
        ∀ rnd, stepRnd rnd s = withRnd rnd exec i s.advance) ∨
      ((s.fetchWord = none ∨ ∃ w r, s.fetchWord = some w ∧ decodeWord w = .error r) ∧
        ∃ t, step s = .next t ∧ (∀ rnd, stepRnd rnd s = .next t) ∧ t.halted = true))

/-- `00_scope.md` section 5 and `20_memory.md` section 4: every rule checks its bound before it accesses memory, so no
execute stage reaches an address outside 0..4095: none ends in the model's fault for that, and none is refused. -/
def Obligations.ExecStaysInsideMemory : Prop :=
  ∀ (i : Instr) (s : State), ∃ t, exec i s = .next t

/-- R91: in the Running state, `pc` ≥ 4095 raises `OutOfBoundsFetch` with `fault.pc` = `pc` and `fault.iw` = 0, `pc` is
left unchanged and nothing else is written; `pc` = 4094 is the largest address that can be fetched from. -/
def Obligations.FetchOutOfBounds : Prop :=
  ∀ (s : State), s.runState = .running →
    (4095 ≤ s.pc.toNat → ∃ t, step s = .next t ∧ t.halted = true ∧ t.fault = ⟨.outOfBoundsFetch, s.pc, 0⟩ ∧
      ChangesOnly s t (fun p => p = .halted ∨ p = .fault)) ∧
    (s.pc.toNat ≤ 4094 → ∀ t, step s = .next t → t.halted = true → t.fault.kind ≠ .outOfBoundsFetch)

/-- An illegal word that is fetched raises `IllegalInstruction` after the advance (`30_encoding.md` section 4; the fault
for unmatched low bits is the spec's decision D5, log 12). -/
def Obligations.IllegalWordHalts : Prop :=
  ∀ (s : State) (w : Word) (r : Reject), s.runState = .running → s.fetchWord = some w → decodeWord w = .error r →
    ∃ t, step s = .next t ∧ t.halted = true ∧ t.fault = ⟨.illegalInstruction, s.pc, w⟩ ∧ t.pc = s.pc + 2 ∧
      ChangesOnly s t (fun p => p = .halted ∨ p = .fault ∨ p = .pc)

/-- `60_exceptions.md` section 2: a fatal fault records the start of the step and the word fetched, leaves `pc` at start
+ 2 (unadvanced for `OutOfBoundsFetch`), and changes nothing else. What a faulting instruction leaves is the spec's
decision D7 (log 14), the record's layout D8 (log 15). -/
def Obligations.FatalFaultsArePrecise : Prop :=
  ∀ (s t : State), s.runState = .running → step s = .next t → t.halted = true →
    ∃ k w, k ≠ .none ∧ t.fault = ⟨k, s.pc, w⟩ ∧
      ((k = .outOfBoundsFetch ∧ w = 0 ∧ t.pc = s.pc) ∨
        (k ≠ .outOfBoundsFetch ∧ s.fetchWord = some w ∧ t.pc = s.pc + 2)) ∧
      ChangesOnly s t (fun p => p = .halted ∨ p = .fault ∨ p = .pc)

/-- The table of `60_exceptions.md` section 1: which fault a step raises, and exactly when. The overflow test of `0NNN`
is the spec's decision D4 (log 11), the illegal words D5 (log 12), the bound of `DXYN` D10 (log 17). -/
def Obligations.FaultsArisenExactlyWhenListed : Prop :=
  ∀ (s t : State), s.runState = .running → step s = .next t →
    (t.halted = true ∧ t.fault.kind = .outOfBoundsFetch ↔ 4095 ≤ s.pc.toNat) ∧
    (t.halted = true ∧ t.fault.kind = .stackOverflow ↔
      ∃ w nnn, s.fetchWord = some w ∧ (decodeWord w = .ok (.call nnn) ∨ decodeWord w = .ok (.sys nnn)) ∧
        s.sp.val = 16) ∧
    (t.halted = true ∧ t.fault.kind = .stackUnderflow ↔ s.fetchWord = some 0x00EE ∧ s.sp.val = 0) ∧
    (t.halted = true ∧ t.fault.kind = .illegalInstruction ↔
      ∃ w r, s.fetchWord = some w ∧ decodeWord w = .error r) ∧
    (t.halted = true ∧ t.fault.kind = .indexOutOfBounds ↔
      ∃ w, s.fetchWord = some w ∧
        ((∃ x, decodeWord w = .ok (.ldB x) ∧ 4096 ≤ s.I.toNat + 2) ∨
         (∃ x, (decodeWord w = .ok (.storeRegs x) ∨ decodeWord w = .ok (.loadRegs x)) ∧ 4096 ≤ s.I.toNat + x.val) ∨
         (∃ x y n, decodeWord w = .ok (.drw x y n) ∧ 1 ≤ n.toNat ∧ 4096 ≤ s.I.toNat + n.toNat - 1))) ∧
    (t.halted = true → t.fault.kind ≠ .none)

/-- The random input of a step is ignored by every instruction except `CXNN` (`40_step_cycle.md` section 2; that it is an
unconstrained input is the spec's decision D15, log 29); a step that fetches a word `CXNN` leaves it AND NN in `x[X]`, for
the X and NN of that word; and `step` is the step whose input is the model's free value (log 2). -/
def Obligations.RandomInputMattersToRndOnly : Prop :=
  ∀ (s : State) (rnd : Byte), stepRnd (Config.randomByte s.draws) s = step s ∧
    ((∀ w x nn, s.fetchWord = some w → decodeWord w ≠ .ok (.rnd x nn)) → stepRnd rnd s = step s) ∧
    (∀ w, s.runState = .running → s.fetchWord = some w → w &&& 0xF000 = 0xC000 →
      ∃ t, stepRnd rnd s = .next t ∧ t.reg (fieldX w) = rnd &&& fieldNN w ∧ t.pc = s.pc + 2 ∧
        ChangesOnly s t (fun p => p = .reg (fieldX w) ∨ p = .pc ∨ p = .draws))

/-! ### Invariants -/

/-- The invariants hold at reset. -/
def Obligations.ResetMeetsInvariant : Prop := State.reset.Inv ∧ State.reset.FaultExplained

/-- `10_state.md` section 12: every step keeps the invariants: canonical memory, `halted` = 1 iff a fault is recorded,
not both halted and waiting, `pc` ≤ 0x10FE, pushed return addresses 2..4096. -/
def Obligations.StepKeepsInvariant : Prop :=
  ∀ (s t : State), s.Inv → step s = .next t → t.Inv

/-- `10_state.md` section 12: every event of the host keeps the invariants. -/
def Obligations.EventsKeepInvariant : Prop :=
  ∀ (e : Event) (s t : State), s.Inv → deliver e s = .next t → t.Inv

/-- `60_exceptions.md` sections 1 and 2: the record of a fatal fault goes on telling why the machine halted, whatever the
host delivers. (`DXYN`'s bound is the spec's decision D10, log 17.) -/
def Obligations.EventsKeepFaultExplained : Prop :=
  ∀ (e : Event) (s t : State), s.Inv → s.FaultExplained → deliver e s = .next t → t.FaultExplained

/-- Every finite sequence of events from reset is carried out, and ends in a state that meets the invariants and explains
its fault. -/
def Obligations.EveryReachableStateIsSound : Prop :=
  ∀ es : List Event, ∃ t, deliverAll es State.reset = .next t ∧ t.Inv ∧ t.FaultExplained

/-! ### Reset, load and the run states -/

/-- R240, R242: power-on and `RESET`, in every run state, give every field of the spec the listed value. (What the model
adds, `loadResult` and `draws`, is not spoken of: log 5, log 3.) -/
def Obligations.ResetValues : Prop :=
  ∀ s t : State, (t = State.reset ∨ deliver .reset s = .next t) →
    (∀ a, t.mem.read a = 0) ∧ (∀ i, t.reg i = 0) ∧ t.I = 0 ∧ t.pc = 0x200 ∧ (∀ k : Fin 16, t.stack[k] = 0) ∧
    t.sp.val = 0 ∧ t.dt = 0 ∧ t.st = 0 ∧ t.tone = false ∧ (∀ x y, t.fb.pixel x y = false) ∧
    (∀ k : Fin 16, t.key[k] = false) ∧ t.waiting = none ∧ t.halted = false ∧ t.fault = ⟨.none, 0, 0⟩ ∧
    t.runState = .running

/-- `60_exceptions.md` section 2 and `70_reset_and_hazards.md` section 1: nothing but `RESET` clears `halted` or the
fault record, and nothing but `RESET` and the release of a recognized key ends a wait. (That `LOAD` does not is the
spec's decision D17, log 23.) -/
def Obligations.OnlyResetLeavesHalted : Prop :=
  ∀ (e : Event) (s t : State), deliver e s = .next t →
    (s.halted = true → e ≠ .reset → t.halted = true ∧ t.fault = s.fault) ∧
    (∀ r, s.waiting = some r → t.waiting ≠ some r → e = .reset ∨ ∃ id, id ≤ 15 ∧ e = .lift id)

/-- R214: the run states and their transitions. -/
def Obligations.RunStateTransitions : Prop :=
  ∀ (e : Event) (s t : State), deliver e s = .next t →
    (e = .reset → t.runState = .running) ∧
    (s.runState = .halted → e ≠ .reset → t.runState = .halted) ∧
    (s.runState = .waiting →
      ((∃ id, id ≤ 15 ∧ e = .lift id) → t.runState = .running) ∧
      ((∀ id, id ≤ 15 → e ≠ .lift id) → e ≠ .reset → t.runState = .waiting) ∧
      (∀ rnd, e = .step rnd → t = s)) ∧
    (s.runState = .running →
      (∀ rnd, e = .step rnd →
        (∀ w x, s.fetchWord = some w → decodeWord w = .ok (.ldVxK x) → t.runState = .waiting ∧ t.waiting = some x) ∧
        ((∀ w x, s.fetchWord = some w → decodeWord w ≠ .ok (.ldVxK x)) →
          (t.halted = true → t.runState = .halted ∧ t.fault.kind ≠ .none ∧ t.fault.pc = s.pc) ∧
          (t.halted = false → t.runState = .running))) ∧
      ((∀ rnd, e ≠ .step rnd) → t.runState = .running))

/-- A `LOAD` of at most 3584 bytes puts byte k at 0x200 + k, sets `pc` to 0x200, reports ok and leaves everything else
alone (`70_reset_and_hazards.md` section 2). That it leaves `halted` and `waiting` alone is the spec's decision D17 (log
23); that the result port is held in the state is the model's choice (log 5). -/
def Obligations.LoadPlacesImage : Prop :=
  ∀ (bytes : List Byte) (s : State), bytes.length ≤ 3584 →
    ∃ t, deliver (.load bytes) s = .next t ∧
      (∀ k (h : k < bytes.length), t.mem.read (0x200 + k) = bytes[k]) ∧ t.pc = 0x200 ∧ t.loadResult = some .ok ∧
      ChangesOnly s t (fun p => p = .pc ∨ p = .loadResult ∨ ∃ k, k < bytes.length ∧ p = .byte (0x200 + k))

/-- R244: a `LOAD` of more than 3584 = 4096 − 0x200 bytes reports `ProgramTooLarge` and changes nothing else. -/
def Obligations.OversizeLoadChangesNothing : Prop :=
  ∀ (bytes : List Byte) (s : State), 4096 - 0x200 < bytes.length →
    ∃ t, deliver (.load bytes) s = .next t ∧ t.loadResult = some .programTooLarge ∧ t.mem = s.mem ∧
      ChangesOnly s t (fun p => p = .loadResult)

/-! ### Timers, keys and outputs -/

/-- R215: `TICK` takes 1 from each timer that is above 0, and changes nothing else; so after n ticks a timer set to v
holds v − n, never below 0, and `tone` falls when `st` reaches 0. -/
def Obligations.TicksCountDown : Prop :=
  ∀ (n : Nat) (s : State), ∃ t, deliverAll (List.replicate n .tick) s = .next t ∧
    t.dt.toNat = s.dt.toNat - n ∧ t.st.toNat = s.st.toNat - n ∧ t.tone = decide (n < s.st.toNat) ∧
    ChangesOnly s t (fun p => p = .dt ∨ p = .st)

/-- `PRESS(id)` (`60_exceptions.md` section 6) sets `key[id]` for id ≤ 15 and changes nothing else; for any other id it
changes nothing. Which ids are recognized is the spec's decision D20 (log 26). -/
def Obligations.PressSetsLatch : Prop :=
  ∀ (id : Nat) (s : State), ∃ t, deliver (.press id) s = .next t ∧
    (∀ k : Fin 16, k.val = id → t.key[k] = true) ∧ ChangesOnly s t (fun p => ∃ k : Fin 16, k.val = id ∧ p = .key k)

/-- `LIFT(id)` (`60_exceptions.md` section 6): for id ≤ 15 it clears `key[id]`, and a pending wait of register r ends
with x[r] = id; for any other id it changes nothing. That a release ends the wait without the latch bit having been set,
and inside the event, is the spec's decision D13 (log 20). -/
def Obligations.LiftResolvesWait : Prop :=
  ∀ (id : Nat) (s : State),
    (15 < id → deliver (.lift id) s = .next s) ∧
    (id ≤ 15 → ∃ t, deliver (.lift id) s = .next t ∧ (∀ k : Fin 16, k.val = id → t.key[k] = false) ∧
      t.waiting = none ∧ (∀ r, s.waiting = some r → (t.reg r).toNat = id) ∧
      ChangesOnly s t (fun p => (∃ k : Fin 16, k.val = id ∧ p = .key k) ∨ p = .waiting ∨
        ∃ r, s.waiting = some r ∧ p = .reg r))

/-- R219: only the first release resolves a wait: whatever key events follow it write no register. A release that
arrives when no wait is pending only clears its latch bit and has no effect on a later `FX0A`; a press during a wait
updates the latch as always. -/
def Obligations.OnlyFirstReleaseResolves : Prop :=
  (∀ (s t : State) (r : RegIdx) (id : Nat) (es : List Event), s.waiting = some r → id ≤ 15 →
    deliver (.lift id) s = .next t → (∀ e ∈ es, ∃ k, e = .lift k ∨ e = .press k) →
    ∃ u, deliverAll es t = .next u ∧ (u.reg r).toNat = id ∧ u.waiting = none ∧
      ChangesOnly t u (fun p => ∃ k, p = .key k)) ∧
  (∀ (s t : State) (id : Nat), s.waiting = none → deliver (.lift id) s = .next t →
    (∀ k : Fin 16, k.val = id → t.key[k] = false) ∧
    ChangesOnly s t (fun p => ∃ k : Fin 16, k.val = id ∧ p = .key k) ∧
    ∀ x, ∃ u, exec (.ldVxK x) t = .next u ∧ u.waiting = some x ∧ u.reg x = s.reg x) ∧
  (∀ (s t : State) (r : RegIdx) (id : Nat), s.waiting = some r → deliver (.press id) s = .next t →
    (∀ k : Fin 16, k.val = id → t.key[k] = true) ∧ t.waiting = some r ∧
    ChangesOnly s t (fun p => ∃ k : Fin 16, k.val = id ∧ p = .key k))

/-- `10_state.md` section 13: the outputs show the state. The flat layout, bit y × 64 + x, and `tone` are the spec's
decision D19 (log 25). -/
def Obligations.OutputsShowState : Prop :=
  ∀ s : State, (∀ (x : Fin 64) (y : Fin 32), s.outputs.fb.getLsbD (y.val * 64 + x.val) = s.fb.pixel x y) ∧
    s.outputs.halted = s.halted ∧ s.outputs.st = s.st ∧ (s.outputs.tone = true ↔ s.st ≠ 0) ∧
    s.outputs.faultKind = s.fault.kind.code ∧ s.outputs.faultPc = s.fault.pc ∧ s.outputs.faultIw = s.fault.iw ∧
    s.outputs.loadResult = s.loadResult

/-! ### Control flow -/

/-- R100: `00EE` pops `pc`; the popped entry keeps its contents; with `sp` = 0 it faults. -/
def Obligations.ReturnPopsStack : Prop :=
  WordsDecode 0xFFFF 0x00EE (fun _ => .ret) ∧
  ∀ s : State,
    (s.sp.val = 0 → ∃ t, exec .ret s = .next t ∧ Faulted .stackUnderflow 0x00EE s t) ∧
    (∀ k : Fin 16, s.sp.val = k.val + 1 → ∃ t, exec .ret s = .next t ∧ t.sp.val = k.val ∧ t.pc = s.stack[k] ∧
      ChangesOnly s t (fun p => p = .sp ∨ p = .pc))

/-- R103: `2NNN` pushes the advanced `pc` and jumps to NNN, unreduced and unchecked; sixteen nested calls fill the stack
and the next one faults with nothing pushed. -/
def Obligations.CallPushesReturnAddress : Prop :=
  WordsDecode 0xF000 0x2000 (fun w => .call (fieldNNN w)) ∧
  ∀ (nnn : Addr) (s : State),
    (s.sp.val = 16 → ∃ t, exec (.call nnn) s = .next t ∧ Faulted .stackOverflow (encode (.call nnn)) s t) ∧
    (∀ k : Fin 16, s.sp.val = k.val → ∃ t, exec (.call nnn) s = .next t ∧ t.stack[k] = s.pc ∧ t.sp.val = k.val + 1 ∧
      t.pc.toNat = nnn.toNat ∧ ChangesOnly s t (fun p => p = .stackEntry k ∨ p = .sp ∨ p = .pc))

/-- `0NNN` has exactly the effect of `2NNN` (`41_control_flow.md` section 2); that this includes the overflow test is the
spec's decision D4 (log 11). -/
def Obligations.SysIsACall : Prop :=
  (∀ w : Word, w &&& 0xF000 = 0x0000 → w ≠ 0x00E0#16 → w ≠ 0x00EE#16 → decodeWord w = .ok (.sys (fieldNNN w))) ∧
  ∀ (nnn : Addr) (s : State),
    (s.sp.val = 16 → ∃ t, exec (.sys nnn) s = .next t ∧ Faulted .stackOverflow (encode (.sys nnn)) s t) ∧
    (∀ k : Fin 16, s.sp.val = k.val → exec (.sys nnn) s = exec (.call nnn) s ∧
      ∃ t, exec (.sys nnn) s = .next t ∧ t.stack[k] = s.pc ∧ t.sp.val = k.val + 1 ∧ t.pc.toNat = nnn.toNat ∧
        ChangesOnly s t (fun p => p = .stackEntry k ∨ p = .sp ∨ p = .pc))

/-- "2NNN followed eventually by 00EE returns programCounter to (original call site + 2)" (`41_control_flow.md` section
2): a return from any later state at the same depth, whose used entries are untouched, goes back to the pushed `pc`. -/
def Obligations.CallThenReturnComesBack : Prop :=
  ∀ (nnn : Addr) (s t u : State), s.sp.val < 16 → exec (.call nnn) s = .next t → u.sp = t.sp →
    (∀ k : Fin 16, k.val < t.sp.val → u.stack[k] = t.stack[k]) →
    ∃ v, exec .ret u = .next v ∧ v.pc = s.pc ∧ v.sp = s.sp

/-- R102, R108: `1NNN` sets `pc` to NNN, `BNNN` to `x[0]` + NNN, at most 0x10FE, not reduced. -/
def Obligations.JumpsSetPc : Prop :=
  WordsDecode 0xF000 0x1000 (fun w => .jp (fieldNNN w)) ∧ WordsDecode 0xF000 0xB000 (fun w => .jpV0 (fieldNNN w)) ∧
  ∀ (nnn : Addr) (s : State),
    (∃ t, exec (.jp nnn) s = .next t ∧ t.pc.toNat = nnn.toNat ∧ ChangesOnly s t (fun p => p = .pc)) ∧
    (∃ t, exec (.jpV0 nnn) s = .next t ∧ t.pc.toNat = (s.reg 0).toNat + nnn.toNat ∧ t.pc.toNat ≤ 0x10FE ∧
      ChangesOnly s t (fun p => p = .pc))

/-- R104 to R107: the four register skips add 2 to the advanced `pc` when their condition holds, and otherwise change
nothing. -/
def Obligations.RegisterSkips : Prop :=
  WordsDecode 0xF000 0x3000 (fun w => .seImm (fieldX w) (fieldNN w)) ∧
  WordsDecode 0xF000 0x4000 (fun w => .sneImm (fieldX w) (fieldNN w)) ∧
  WordsDecode 0xF00F 0x5000 (fun w => .seReg (fieldX w) (fieldY w)) ∧
  WordsDecode 0xF00F 0x9000 (fun w => .sneReg (fieldX w) (fieldY w)) ∧
  ∀ (x y : RegIdx) (nn : Byte) (s : State),
    (∃ t, exec (.seImm x nn) s = .next t ∧ t.pc = (if s.reg x = nn then s.pc + 2 else s.pc) ∧
      ChangesOnly s t (fun p => p = .pc)) ∧
    (∃ t, exec (.sneImm x nn) s = .next t ∧ t.pc = (if s.reg x = nn then s.pc else s.pc + 2) ∧
      ChangesOnly s t (fun p => p = .pc)) ∧
    (∃ t, exec (.seReg x y) s = .next t ∧ t.pc = (if s.reg x = s.reg y then s.pc + 2 else s.pc) ∧
      ChangesOnly s t (fun p => p = .pc)) ∧
    (∃ t, exec (.sneReg x y) s = .next t ∧ t.pc = (if s.reg x = s.reg y then s.pc else s.pc + 2) ∧
      ChangesOnly s t (fun p => p = .pc))

/-- `EX9E` and `EXA1` (`45_timers_keys.md` section 2) skip on whether the key whose index is x[X] is pressed; that a
value above 15 reads as not pressed is the spec's decision D12 (log 19). -/
def Obligations.KeySkips : Prop :=
  ∀ (x : RegIdx) (s : State),
    (∀ k : Fin 16, (s.reg x).toNat = k.val →
      (∃ t, exec (.skp x) s = .next t ∧ t.pc = (if s.key[k] then s.pc + 2 else s.pc) ∧
        ChangesOnly s t (fun p => p = .pc)) ∧
      (∃ t, exec (.sknp x) s = .next t ∧ t.pc = (if s.key[k] then s.pc else s.pc + 2) ∧
        ChangesOnly s t (fun p => p = .pc))) ∧
    (15 < (s.reg x).toNat →
      exec (.skp x) s = .next s ∧
      ∃ t, exec (.sknp x) s = .next t ∧ t.pc = s.pc + 2 ∧ ChangesOnly s t (fun p => p = .pc))

/-! ### Load, arithmetic, logic, shift, random -/

/-- R120, R121: `6XNN` loads NN; `7XNN` adds NN modulo 256 and sets no flag: `x[15]` too is unchanged unless X = 0xF. -/
def Obligations.ImmediateLoadAndAdd : Prop :=
  WordsDecode 0xF000 0x6000 (fun w => .ldImm (fieldX w) (fieldNN w)) ∧
  WordsDecode 0xF000 0x7000 (fun w => .addImm (fieldX w) (fieldNN w)) ∧
  ∀ (x : RegIdx) (nn : Byte) (s : State),
    (∃ t, exec (.ldImm x nn) s = .next t ∧ t.reg x = nn ∧ ChangesOnly s t (fun p => p = .reg x)) ∧
    (∃ t, exec (.addImm x nn) s = .next t ∧ (t.reg x).toNat = ((s.reg x).toNat + nn.toNat) % 256 ∧
      ChangesOnly s t (fun p => p = .reg x))

/-- R122 to R125: copy, OR, AND and XOR write `x[X]` only; `x[15]` is unchanged unless X = 0xF. -/
def Obligations.CopyAndLogic : Prop :=
  WordsDecode 0xF00F 0x8000 (fun w => .ldReg (fieldX w) (fieldY w)) ∧
  WordsDecode 0xF00F 0x8001 (fun w => .orReg (fieldX w) (fieldY w)) ∧
  WordsDecode 0xF00F 0x8002 (fun w => .andReg (fieldX w) (fieldY w)) ∧
  WordsDecode 0xF00F 0x8003 (fun w => .xorReg (fieldX w) (fieldY w)) ∧
  ∀ (x y : RegIdx) (s : State),
    (∃ t, exec (.ldReg x y) s = .next t ∧ t.reg x = s.reg y ∧ ChangesOnly s t (fun p => p = .reg x)) ∧
    (∃ t, exec (.orReg x y) s = .next t ∧
      (∀ b, (t.reg x).getLsbD b = ((s.reg x).getLsbD b || (s.reg y).getLsbD b)) ∧
      ChangesOnly s t (fun p => p = .reg x)) ∧
    (∃ t, exec (.andReg x y) s = .next t ∧
      (∀ b, (t.reg x).getLsbD b = ((s.reg x).getLsbD b && (s.reg y).getLsbD b)) ∧
      ChangesOnly s t (fun p => p = .reg x)) ∧
    (∃ t, exec (.xorReg x y) s = .next t ∧
      (∀ b, (t.reg x).getLsbD b = ((s.reg x).getLsbD b ^^ (s.reg y).getLsbD b)) ∧
      ChangesOnly s t (fun p => p = .reg x))

/-- `8XY4`, `8XY5`, `8XY7` (`42_alu.md` sections 1 and 3): the result modulo 256 in `x[X]`, carry or no-borrow in
`x[15]`, both from the operands before the instruction. That they are latched, and that with X = 0xF the result remains
in `x[15]`, is the spec's decision D6 (log 13). -/
def Obligations.AddAndSubtractSetFlag : Prop :=
  ∀ (x y : RegIdx) (s : State),
    (∃ t, exec (.addReg x y) s = .next t ∧ (t.reg x).toNat = ((s.reg x).toNat + (s.reg y).toNat) % 256 ∧
      (x ≠ 15 → t.reg 15 = if 255 < (s.reg x).toNat + (s.reg y).toNat then 1 else 0) ∧
      ChangesOnly s t (fun p => p = .reg x ∨ p = .reg 15)) ∧
    (∃ t, exec (.sub x y) s = .next t ∧ (t.reg x).toNat = ((s.reg x).toNat + 256 - (s.reg y).toNat) % 256 ∧
      (x ≠ 15 → t.reg 15 = if (s.reg y).toNat ≤ (s.reg x).toNat then 1 else 0) ∧
      ChangesOnly s t (fun p => p = .reg x ∨ p = .reg 15)) ∧
    (∃ t, exec (.subn x y) s = .next t ∧ (t.reg x).toNat = ((s.reg y).toNat + 256 - (s.reg x).toNat) % 256 ∧
      (x ≠ 15 → t.reg 15 = if (s.reg x).toNat ≤ (s.reg y).toNat then 1 else 0) ∧
      ChangesOnly s t (fun p => p = .reg x ∨ p = .reg 15))

/-- `8XY6`, `8XYE` (`42_alu.md` sections 1 and 3): `x[X]` shifted by one in place, the bit shifted out in `x[15]`; `x[Y]`
is neither read nor written, so all sixteen values of Y are one instruction. With X = 0xF the result remains in `x[15]`:
the spec's decision D6 (log 13). -/
def Obligations.ShiftsSetFlag : Prop :=
  ∀ (x y y' : RegIdx) (s : State),
    (∃ t, exec (.shr x y) s = .next t ∧ (t.reg x).toNat = (s.reg x).toNat / 2 ∧
      (x ≠ 15 → (t.reg 15).toNat = (s.reg x).toNat % 2) ∧
      ChangesOnly s t (fun p => p = .reg x ∨ p = .reg 15)) ∧
    (∃ t, exec (.shl x y) s = .next t ∧ (t.reg x).toNat = (s.reg x).toNat * 2 % 256 ∧
      (x ≠ 15 → (t.reg 15).toNat = (s.reg x).toNat / 128) ∧
      ChangesOnly s t (fun p => p = .reg x ∨ p = .reg 15)) ∧
    exec (.shr x y) s = exec (.shr x y') s ∧ exec (.shl x y) s = exec (.shl x y') s

/-- `CXNN` (`42_alu.md` section 4): `x[X]` becomes the step's random byte AND NN, for every random byte, so every value
whose 1 bits are a subset of NN's is possible and no other. In `exec` the byte is the model's free value (log 2), and the
next execution draws another one (log 3). -/
def Obligations.RandomByteIsMasked : Prop :=
  ∀ (x : RegIdx) (nn : Byte) (s : State),
    (∃ t, exec (.rnd x nn) s = .next t ∧ t.reg x = Config.randomByte s.draws &&& nn ∧ t.draws = s.draws + 1 ∧
      ChangesOnly s t (fun p => p = .reg x ∨ p = .draws)) ∧
    (∀ rnd, ∃ t, withRnd rnd exec (.rnd x nn) s = .next t ∧ t.reg x = rnd &&& nn ∧
      ChangesOnly s t (fun p => p = .reg x ∨ p = .draws)) ∧
    (∀ v : Byte, (∀ b, v.getLsbD b = true → nn.getLsbD b = true) ↔
      ∃ rnd t, withRnd rnd exec (.rnd x nn) s = .next t ∧ t.reg x = v)

/-! ### Index register and memory -/

/-- R140: `ANNN` sets `I` to NNN, zero-extended. -/
def Obligations.LoadIndex : Prop :=
  WordsDecode 0xF000 0xA000 (fun w => .ldI (fieldNNN w)) ∧
  ∀ (nnn : Addr) (s : State),
    ∃ t, exec (.ldI nnn) s = .next t ∧ t.I.toNat = nnn.toNat ∧ ChangesOnly s t (fun p => p = .index)

/-- `FX1E` and `FX29` (`43_index_memory.md` section 2): `I` + x[X] modulo 65536 with no flag, and x[X] × 5 with the whole
8-bit value. That `I` is 16 bits and is not kept modulo 4096 is the spec's decision D11 (log 18). -/
def Obligations.IndexArithmetic : Prop :=
  ∀ (x : RegIdx) (s : State),
    (∃ t, exec (.addI x) s = .next t ∧ t.I.toNat = (s.I.toNat + (s.reg x).toNat) % 65536 ∧
      ChangesOnly s t (fun p => p = .index)) ∧
    (∃ t, exec (.ldF x) s = .next t ∧ t.I.toNat = (s.reg x).toNat * 5 ∧ ChangesOnly s t (fun p => p = .index))

/-- R143: `FX33` stores the three decimal digits of `x[X]` at `I`, `I`+1, `I`+2; with `I` + 2 ≥ 4096 it faults and writes
no byte. -/
def Obligations.StoreDecimalDigits : Prop :=
  WordsDecode 0xF0FF 0xF033 (fun w => .ldB (fieldX w)) ∧
  ∀ (x : RegIdx) (s : State),
    (4096 ≤ s.I.toNat + 2 → ∃ t, exec (.ldB x) s = .next t ∧ Faulted .indexOutOfBounds (encode (.ldB x)) s t) ∧
    (s.I.toNat + 2 < 4096 → ∃ t, exec (.ldB x) s = .next t ∧
      ∀ a, a = s.I.toNat →
        (t.mem.read a).toNat = (s.reg x).toNat / 100 ∧ (t.mem.read (a + 1)).toNat = (s.reg x).toNat / 10 % 10 ∧
        (t.mem.read (a + 2)).toNat = (s.reg x).toNat % 10 ∧
        ChangesOnly s t (fun p => p = .byte a ∨ p = .byte (a + 1) ∨ p = .byte (a + 2)))

/-- R144: `FX55` stores `x[0]`..`x[X]` from `I` up and adds X + 1 to `I` modulo 65536; with `I` + X ≥ 4096 it faults,
nothing is written and `I` is unchanged. -/
def Obligations.StoreRegisters : Prop :=
  WordsDecode 0xF0FF 0xF055 (fun w => .storeRegs (fieldX w)) ∧
  ∀ (x : RegIdx) (s : State),
    (4096 ≤ s.I.toNat + x.val →
      ∃ t, exec (.storeRegs x) s = .next t ∧ Faulted .indexOutOfBounds (encode (.storeRegs x)) s t) ∧
    (s.I.toNat + x.val < 4096 → ∃ t, exec (.storeRegs x) s = .next t ∧
      t.I.toNat = (s.I.toNat + x.val + 1) % 65536 ∧
      ∀ a, a = s.I.toNat →
        (∀ i : RegIdx, i ≤ x → t.mem.read (a + i.val) = s.reg i) ∧
        ChangesOnly s t (fun p => p = .index ∨ ∃ i : RegIdx, i ≤ x ∧ p = .byte (a + i.val)))

/-- R145: `FX65` loads `x[0]`..`x[X]` from `I` up and adds X + 1 to `I` modulo 65536; with `I` + X ≥ 4096 it faults and
no register nor `I` is changed. After `FX55` at base b, `FX65` with the same X and `I` set back to b restores `x[0]`..
`x[X]` exactly, whatever the registers hold by then, and `I` ends at b + X + 1. -/
def Obligations.LoadRegisters : Prop :=
  WordsDecode 0xF0FF 0xF065 (fun w => .loadRegs (fieldX w)) ∧
  (∀ (x : RegIdx) (s : State),
    (4096 ≤ s.I.toNat + x.val →
      ∃ t, exec (.loadRegs x) s = .next t ∧ Faulted .indexOutOfBounds (encode (.loadRegs x)) s t) ∧
    (s.I.toNat + x.val < 4096 → ∃ t, exec (.loadRegs x) s = .next t ∧
      t.I.toNat = (s.I.toNat + x.val + 1) % 65536 ∧
      (∀ i : RegIdx, i ≤ x → t.reg i = s.mem.read (s.I.toNat + i.val)) ∧
      ChangesOnly s t (fun p => p = .index ∨ ∃ i : RegIdx, i ≤ x ∧ p = .reg i))) ∧
  (∀ (x : RegIdx) (s t u : State), s.I.toNat + x.val < 4096 → exec (.storeRegs x) s = .next t → u.mem = t.mem →
    u.I = s.I → ∃ v, exec (.loadRegs x) u = .next v ∧ (∀ i : RegIdx, i ≤ x → v.reg i = s.reg i) ∧ v.I = t.I)

/-- `20_memory.md` section 7: a store is seen by every later fetch with nothing in between: after `FX55`, a fetch at two
of the bytes it stored fetches the word those registers spell, the lower address high. -/
def Obligations.FetchSeesStore : Prop :=
  ∀ (x i j : RegIdx) (s t : State), s.I.toNat + x.val < 4096 → exec (.storeRegs x) s = .next t → j ≤ x →
    j.val = i.val + 1 → (t.jump (s.I + BitVec.ofNat 16 i.val)).fetchWord = some (wordOfBytes (s.reg i) (s.reg j))

/-! ### Display -/

/-- R161: `00E0` turns every pixel off. -/
def Obligations.ClearScreen : Prop :=
  WordsDecode 0xFFFF 0x00E0 (fun _ => .cls) ∧
  ∀ s : State, ∃ t, exec .cls s = .next t ∧ (∀ x y, t.fb.pixel x y = false) ∧
    ChangesOnly s t (fun p => ∃ x y, p = .pixel x y)

/-- `DXYN` (`44_display.md`): every pixel is XORed with the sprite bit that falls on it, wrapping at both edges;
`x[15]` = 1 exactly when some pixel that was on met a sprite bit 1, else 0; N = 0 draws nothing; a sprite that reaches
address 4096 faults and draws nothing. Orientation and bit order are the spec's decision D9 (log 16), the bound D10 (log
17). -/
def Obligations.DrawXorsSprite : Prop :=
  ∀ (x y : RegIdx) (n : Nibble) (s : State),
    (1 ≤ n.toNat ∧ 4096 ≤ s.I.toNat + n.toNat - 1 →
      ∃ t, exec (.drw x y n) s = .next t ∧ Faulted .indexOutOfBounds (encode (.drw x y n)) s t) ∧
    (n.toNat = 0 ∨ s.I.toNat + n.toNat - 1 < 4096 → ∃ t, exec (.drw x y n) s = .next t ∧
      (∀ px py, t.fb.pixel px py = (s.fb.pixel px py ^^ s.spriteBitAt x y n px py)) ∧
      (t.reg 15 = 1 ∨ t.reg 15 = 0) ∧
      (t.reg 15 = 1 ↔ ∃ px py, s.fb.pixel px py = true ∧ s.spriteBitAt x y n px py = true) ∧
      ChangesOnly s t (fun p => p = .reg 15 ∨ ∃ px py, p = .pixel px py))

/-- "DXYN draw of the same sprite twice at the same location clears those pixels (XOR)" (`44_display.md` section 2): the
second draw restores the framebuffer, and reports a collision exactly when the first draw left some pixel of the sprite
on. (X and Y are not 0xF, whose value the first draw overwrites; the bound is the spec's decision D10, log 17.) -/
def Obligations.DrawTwiceRestores : Prop :=
  ∀ (x y : RegIdx) (n : Nibble) (s t : State), x ≠ 15 → y ≠ 15 → n.toNat = 0 ∨ s.I.toNat + n.toNat - 1 < 4096 →
    exec (.drw x y n) s = .next t →
    ∃ u, exec (.drw x y n) t = .next u ∧ (∀ px py, u.fb.pixel px py = s.fb.pixel px py) ∧
      (u.reg 15 = 1 ↔ ∃ px py, t.fb.pixel px py = true ∧ s.spriteBitAt x y n px py = true)

/-! ### Timer access and key wait -/

/-- R180, R181, R182: the timer registers are read and written whole; the `tone` output follows `st` at once; no event but
a `STEP` of `FX15` raises `dt`, so a program that polls it between writes sees it never increase. -/
def Obligations.TimerAccess : Prop :=
  WordsDecode 0xF0FF 0xF007 (fun w => .ldVxDT (fieldX w)) ∧ WordsDecode 0xF0FF 0xF015 (fun w => .ldDTVx (fieldX w)) ∧
  WordsDecode 0xF0FF 0xF018 (fun w => .ldSTVx (fieldX w)) ∧
  ∀ (x : RegIdx) (s : State),
    (∃ t, exec (.ldVxDT x) s = .next t ∧ t.reg x = s.dt ∧ ChangesOnly s t (fun p => p = .reg x)) ∧
    (∃ t, exec (.ldDTVx x) s = .next t ∧ t.dt = s.reg x ∧ ChangesOnly s t (fun p => p = .dt)) ∧
    (∃ t, exec (.ldSTVx x) s = .next t ∧ t.st = s.reg x ∧ (t.tone = true ↔ s.reg x ≠ 0) ∧
      ChangesOnly s t (fun p => p = .st)) ∧
    (∀ (e : Event) (t : State), deliver e s = .next t →
      (∀ rnd w y, e = .step rnd → s.fetchWord = some w → decodeWord w ≠ .ok (.ldDTVx y)) → t.dt.toNat ≤ s.dt.toNat)

/-- `FX0A` (`45_timers_keys.md` section 3): it writes `waiting` only; steps are then no-ops, ticks and presses go on and
leave the wait, and the release of a recognized key, whatever the latch held, puts its index in `x[X]` (decisions D13 and
D14, log 20 and log 21). -/
def Obligations.KeyWait : Prop :=
  ∀ (x : RegIdx) (s : State), s.halted = false →
    ∃ t, exec (.ldVxK x) s = .next t ∧ t.waiting = some x ∧ ChangesOnly s t (fun p => p = .waiting) ∧
      step t = .next t ∧
      ∀ (es : List Event) (id : Nat), (∀ e ∈ es, e = .tick ∨ (∃ k, e = .press k) ∨ (∃ rnd, e = .step rnd)) → id ≤ 15 →
        ∃ u v, deliverAll es t = .next u ∧ u.waiting = some x ∧ u.reg x = s.reg x ∧ u.pc = s.pc ∧
          deliver (.lift id) u = .next v ∧ v.waiting = none ∧ (v.reg x).toNat = id ∧ v.pc = s.pc

/-! ### Whole-machine rules -/

/-- The writer lists of `10_state.md`: which instructions may change each field other than the general registers (those
are FlagRegisterWriters and RegistersOtherThanDestinationsSurvive); no instruction writes the key latch or the `LOAD`
result; `halted` is never cleared, and it and the fault record are written by a fatal fault only, which changes nothing
else. (`draws` is the model's own field, log 3.) -/
def Obligations.OnlyTheListedWriters : Prop :=
  ∀ (i : Instr) (s t : State), exec i s = .next t →
    t.key = s.key ∧ t.loadResult = s.loadResult ∧
    (t.mem ≠ s.mem → ∃ x, i = .ldB x ∨ i = .storeRegs x) ∧
    (t.I ≠ s.I → (∃ nnn, i = .ldI nnn) ∨ ∃ x, i = .addI x ∨ i = .ldF x ∨ i = .storeRegs x ∨ i = .loadRegs x) ∧
    (t.pc ≠ s.pc → i = .ret ∨ (∃ nnn, i = .sys nnn ∨ i = .jp nnn ∨ i = .call nnn ∨ i = .jpV0 nnn) ∨
      (∃ x nn, i = .seImm x nn ∨ i = .sneImm x nn) ∨ (∃ x y, i = .seReg x y ∨ i = .sneReg x y) ∨
      ∃ x, i = .skp x ∨ i = .sknp x) ∧
    (t.stack ≠ s.stack → ∃ nnn, i = .sys nnn ∨ i = .call nnn) ∧
    (t.sp ≠ s.sp → i = .ret ∨ ∃ nnn, i = .sys nnn ∨ i = .call nnn) ∧
    (t.dt ≠ s.dt → ∃ x, i = .ldDTVx x) ∧ (t.st ≠ s.st → ∃ x, i = .ldSTVx x) ∧
    (t.fb ≠ s.fb → i = .cls ∨ ∃ x y n, i = .drw x y n) ∧ (t.waiting ≠ s.waiting → ∃ x, i = .ldVxK x) ∧
    (t.draws ≠ s.draws → ∃ x nn, i = .rnd x nn) ∧ (s.halted = true → t.halted = true) ∧
    (t.halted ≠ s.halted ∨ t.fault ≠ s.fault → ∃ k, k ≠ .none ∧ Faulted k (encode i) s t)

/-- The writers of the flag register (`10_state.md` section 3): an instruction that changes `x[15]` is one of the six
that define a flag outcome, or has 0xF among its destinations. That all others leave it is the spec's decision D23 (log
28). -/
def Obligations.FlagRegisterWriters : Prop :=
  ∀ (i : Instr) (s t : State), exec i s = .next t → t.reg 15 ≠ s.reg 15 →
    (∃ x y, i = .addReg x y ∨ i = .sub x y ∨ i = .shr x y ∨ i = .subn x y ∨ i = .shl x y) ∨
    (∃ x y n, i = .drw x y n) ∨
    (∃ y, i = .ldReg 15 y ∨ i = .orReg 15 y ∨ i = .andReg 15 y ∨ i = .xorReg 15 y) ∨
    (∃ nn, i = .ldImm 15 nn ∨ i = .addImm 15 nn ∨ i = .rnd 15 nn) ∨ i = .ldVxDT 15 ∨ i = .loadRegs 15

/-- Registers other than the named destinations survive every instruction: the frame of the general registers over the
whole set (`10_state.md` section 2, `41_control_flow.md` section 5). -/
def Obligations.RegistersOtherThanDestinationsSurvive : Prop :=
  ∀ (i : Instr) (s t : State) (r : RegIdx), exec i s = .next t → r ≠ 15 → t.reg r ≠ s.reg r →
    (∃ nn, i = .ldImm r nn ∨ i = .addImm r nn ∨ i = .rnd r nn) ∨
    (∃ y, i = .ldReg r y ∨ i = .orReg r y ∨ i = .andReg r y ∨ i = .xorReg r y ∨ i = .addReg r y ∨ i = .sub r y ∨
      i = .shr r y ∨ i = .subn r y ∨ i = .shl r y) ∨ i = .ldVxDT r ∨ ∃ x, r ≤ x ∧ i = .loadRegs x

/-! ### The end of a run -/

/-- The end of a run (`70_reset_and_hazards.md` section 3 asks the model to define it; the definition, which is the one
the spec recommends as its decision D22, is the model's choice, log 30): a run has ended at the stated address when the
machine is Running there and the word fetched is a jump to itself, it has failed when the machine is Halted, and so never
both. A step at the end is the identity; ticks and key events leave the run ended; and nothing but `RESET` makes a failed
run anything else. -/
def Obligations.EndOfRun : Prop :=
  ∀ (a : Addr) (s : State),
    (s.verdict a = .failed ↔ s.halted = true) ∧
    (s.verdict a = .ended ↔ s.halted = false ∧ s.waiting = none ∧ s.pc.toNat = a.toNat ∧
      ∃ w, s.fetchWord = some w ∧ decodeWord w = .ok (.jp a)) ∧
    (s.verdict a = .ended → step s = .next s ∧ ∀ rnd, stepRnd rnd s = .next s) ∧
    (∀ (e : Event) (t : State), deliver e s = .next t → e ≠ .reset →
      (s.verdict a = .failed → t.verdict a = .failed) ∧
      (s.verdict a = .ended → (∀ bytes, e ≠ .load bytes) → t.verdict a = .ended))

/-- The verdict on a whole run (`70_reset_and_hazards.md` section 3; the model's choice, log 30) is that of a state the run
arrives at: an ended run passes through the self-jump at the stated address, a failed run through a Halted state; and where
the host delivers no `LOAD` and no `RESET` it is the verdict of the run's last state. -/
def Obligations.RunVerdictIsArrival : Prop :=
  ∀ (a : Addr) (es : List Event) (s : State),
    (∀ v, v ≠ .unfinished → runVerdict a es s = v →
      ∃ pre t, pre <+: es ∧ deliverAll pre s = .next t ∧ t.verdict a = v) ∧
    ((∀ e ∈ es, e ≠ .reset ∧ ∀ bytes, e ≠ .load bytes) →
      ∃ u, deliverAll es s = .next u ∧ runVerdict a es s = u.verdict a)
end

