-- ==== Sys2Proof/Laws/Decode.lean ====
section
/-! SUPPORT. The fields of an encoded word are the operands it was made of, and a word is its fields. -/

namespace Sys2Proof

/-! ### Bits of an appended word

Stated over the sum of the widths, where the library's append lemmas apply; a word's width 16 is that sum. -/

theorem high_append {a b : Nat} (u : BitVec a) (v : BitVec b) : (u ++ v).extractLsb' b a = u := by
  apply BitVec.eq_of_getLsbD_eq
  intro i hi
  simp [hi, BitVec.getLsbD_append]

theorem low_append {a b : Nat} (u : BitVec a) (v : BitVec b) (lo len : Nat) (h : lo + len ≤ b) :
    (u ++ v).extractLsb' lo len = v.extractLsb' lo len := by
  apply BitVec.eq_of_getLsbD_eq
  intro i hi
  have h1 : lo + i < b := by omega
  simp [hi, BitVec.getLsbD_append, h1]

theorem whole_extract {b : Nat} (v : BitVec b) : v.extractLsb' 0 b = v := by
  apply BitVec.eq_of_getLsbD_eq
  intro i hi
  simp [hi]

/-! ### Fields of the three encoding shapes -/

@[simp] theorem fieldOp_encA (op : Nibble) (nnn : Addr) : fieldOp (encA op nnn) = op :=
  high_append op nnn

@[simp] theorem fieldNNN_encA (op : Nibble) (nnn : Addr) : fieldNNN (encA op nnn) = nnn :=
  (low_append op nnn 0 12 (by omega)).trans (whole_extract nnn)

@[simp] theorem fieldOp_encXB (op : Nibble) (x : RegIdx) (nn : Byte) : fieldOp (encXB op x nn) = op :=
  high_append op (BitVec.ofFin (w := 4) x ++ nn)

@[simp] theorem fieldX_encXB (op : Nibble) (x : RegIdx) (nn : Byte) : fieldX (encXB op x nn) = x :=
  congrArg BitVec.toFin ((low_append op (BitVec.ofFin (w := 4) x ++ nn) 8 4 (by omega)).trans (high_append _ nn))

@[simp] theorem fieldNN_encXB (op : Nibble) (x : RegIdx) (nn : Byte) : fieldNN (encXB op x nn) = nn :=
  ((low_append op (BitVec.ofFin (w := 4) x ++ nn) 0 8 (by omega)).trans (low_append _ nn 0 8 (by omega))).trans
    (whole_extract nn)

@[simp] theorem fieldOp_encXYN (op : Nibble) (x y : RegIdx) (n : Nibble) : fieldOp (encXYN op x y n) = op :=
  high_append op (BitVec.ofFin (w := 4) x ++ (BitVec.ofFin (w := 4) y ++ n))

@[simp] theorem fieldX_encXYN (op : Nibble) (x y : RegIdx) (n : Nibble) : fieldX (encXYN op x y n) = x :=
  congrArg BitVec.toFin ((low_append op (BitVec.ofFin (w := 4) x ++ (BitVec.ofFin (w := 4) y ++ n)) 8 4
    (by omega)).trans (high_append _ (BitVec.ofFin (w := 4) y ++ n)))

@[simp] theorem fieldY_encXYN (op : Nibble) (x y : RegIdx) (n : Nibble) : fieldY (encXYN op x y n) = y :=
  congrArg BitVec.toFin (((low_append op (BitVec.ofFin (w := 4) x ++ (BitVec.ofFin (w := 4) y ++ n)) 4 4
    (by omega)).trans (low_append _ (BitVec.ofFin (w := 4) y ++ n) 4 4 (by omega))).trans (high_append _ n))

@[simp] theorem fieldN_encXYN (op : Nibble) (x y : RegIdx) (n : Nibble) : fieldN (encXYN op x y n) = n :=
  (((low_append op (BitVec.ofFin (w := 4) x ++ (BitVec.ofFin (w := 4) y ++ n)) 0 4 (by omega)).trans
    (low_append _ (BitVec.ofFin (w := 4) y ++ n) 0 4 (by omega))).trans (low_append _ n 0 4 (by omega))).trans
    (whole_extract n)

/-! ### A word is its fields -/

theorem split_append {n a b : Nat} (w : BitVec n) (lo : Nat) :
    w.extractLsb' (lo + b) a ++ w.extractLsb' lo b = w.extractLsb' lo (a + b) := by
  apply BitVec.eq_of_getLsbD_eq
  intro i hi
  rw [BitVec.getLsbD_append]
  by_cases h : i < b
  · simp [h, hi]
  · have h1 : i - b < a := by omega
    have h2 : lo + b + (i - b) = lo + i := by omega
    simp [h, hi, h1, h2]

theorem encA_fields (w : Word) : encA (fieldOp w) (fieldNNN w) = w :=
  (split_append (a := 4) (b := 12) w 0).trans (whole_extract w)

theorem fieldNNN_eq (w : Word) : fieldNNN w = BitVec.ofFin (w := 4) (fieldX w) ++ fieldNN w :=
  (split_append (a := 4) (b := 8) w 0).symm

theorem fieldNN_eq (w : Word) : fieldNN w = BitVec.ofFin (w := 4) (fieldY w) ++ fieldN w :=
  (split_append (a := 4) (b := 4) w 0).symm

theorem encXB_fields (w : Word) : encXB (fieldOp w) (fieldX w) (fieldNN w) = w := by
  rw [encXB, ← fieldNNN_eq]
  exact encA_fields w

theorem encXYN_fields (w : Word) : encXYN (fieldOp w) (fieldX w) (fieldY w) (fieldN w) = w := by
  rw [encXYN, ← fieldNN_eq]
  exact encXB_fields w

/-! ### Words under the table's masks (R72, R75) -/

/-- Mask 0xF000 fixes `op`. -/
theorem op_of_mask (w p : Word) (h : w &&& 0xF000 = p) : fieldOp w = fieldOp p := by
  subst h
  apply BitVec.eq_of_getLsbD_eq
  intro i hi
  have : i = 0 ∨ i = 1 ∨ i = 2 ∨ i = 3 := by omega
  rcases this with rfl | rfl | rfl | rfl <;> simp [fieldOp]

/-- Mask 0xF00F fixes `op` and `N`. -/
theorem opN_of_mask (w p : Word) (h : w &&& 0xF00F = p) : fieldOp w = fieldOp p ∧ fieldN w = fieldN p := by
  subst h
  constructor <;> apply BitVec.eq_of_getLsbD_eq <;> intro i hi <;>
  · have : i = 0 ∨ i = 1 ∨ i = 2 ∨ i = 3 := by omega
    rcases this with rfl | rfl | rfl | rfl <;> simp [fieldOp, fieldN]

/-- Mask 0xF0FF fixes `op` and `NN`. -/
theorem opNN_of_mask (w p : Word) (h : w &&& 0xF0FF = p) : fieldOp w = fieldOp p ∧ fieldNN w = fieldNN p := by
  subst h
  constructor <;> apply BitVec.eq_of_getLsbD_eq <;> intro i hi
  · have : i = 0 ∨ i = 1 ∨ i = 2 ∨ i = 3 := by omega
    rcases this with rfl | rfl | rfl | rfl <;> simp [fieldOp]
  · have : i = 0 ∨ i = 1 ∨ i = 2 ∨ i = 3 ∨ i = 4 ∨ i = 5 ∨ i = 6 ∨ i = 7 := by omega
    rcases this with rfl | rfl | rfl | rfl | rfl | rfl | rfl | rfl <;> simp [fieldNN]

/-! ### The first level of decoding (R74): one lemma per family -/

section Families

variable {w : Word}

theorem decodeWord_op0 (h : fieldOp w = 0x0) : decodeWord w = .ok (decode0 w) := by simp [decodeWord, h]
theorem decodeWord_op1 (h : fieldOp w = 0x1) : decodeWord w = .ok (.jp (fieldNNN w)) := by simp [decodeWord, h]
theorem decodeWord_op2 (h : fieldOp w = 0x2) : decodeWord w = .ok (.call (fieldNNN w)) := by simp [decodeWord, h]
theorem decodeWord_op3 (h : fieldOp w = 0x3) :
    decodeWord w = .ok (.seImm (fieldX w) (fieldNN w)) := by simp [decodeWord, h]
theorem decodeWord_op4 (h : fieldOp w = 0x4) :
    decodeWord w = .ok (.sneImm (fieldX w) (fieldNN w)) := by simp [decodeWord, h]
theorem decodeWord_op5 (h : fieldOp w = 0x5) :
    decodeWord w = if fieldN w = 0x0#4 then .ok (.seReg (fieldX w) (fieldY w)) else .error .family5 := by simp [decodeWord, h]
theorem decodeWord_op6 (h : fieldOp w = 0x6) :
    decodeWord w = .ok (.ldImm (fieldX w) (fieldNN w)) := by simp [decodeWord, h]
theorem decodeWord_op7 (h : fieldOp w = 0x7) :
    decodeWord w = .ok (.addImm (fieldX w) (fieldNN w)) := by simp [decodeWord, h]
theorem decodeWord_op8 (h : fieldOp w = 0x8) :
    decodeWord w = decode8 (fieldX w) (fieldY w) (fieldN w) := by simp [decodeWord, h]
theorem decodeWord_op9 (h : fieldOp w = 0x9) :
    decodeWord w = if fieldN w = 0x0#4 then .ok (.sneReg (fieldX w) (fieldY w)) else .error .family9 := by simp [decodeWord, h]
theorem decodeWord_opA (h : fieldOp w = 0xA) : decodeWord w = .ok (.ldI (fieldNNN w)) := by simp [decodeWord, h]
theorem decodeWord_opB (h : fieldOp w = 0xB) : decodeWord w = .ok (.jpV0 (fieldNNN w)) := by simp [decodeWord, h]
theorem decodeWord_opC (h : fieldOp w = 0xC) :
    decodeWord w = .ok (.rnd (fieldX w) (fieldNN w)) := by simp [decodeWord, h]
theorem decodeWord_opD (h : fieldOp w = 0xD) :
    decodeWord w = .ok (.drw (fieldX w) (fieldY w) (fieldN w)) := by simp [decodeWord, h]
theorem decodeWord_opE (h : fieldOp w = 0xE) :
    decodeWord w = decodeE (fieldX w) (fieldNN w) := by simp [decodeWord, h]
theorem decodeWord_opF (h : fieldOp w = 0xF) :
    decodeWord w = decodeF (fieldX w) (fieldNN w) := by simp [decodeWord, h]

end Families

theorem nibble_cases (n : Nibble) :
    n = 0 ∨ n = 1 ∨ n = 2 ∨ n = 3 ∨ n = 4 ∨ n = 5 ∨ n = 6 ∨ n = 7 ∨ n = 8 ∨ n = 9 ∨ n = 10 ∨ n = 11 ∨ n = 12 ∨ n = 13 ∨
      n = 14 ∨ n = 15 := by
  revert n; decide

/-! ### The second level of decoding (R79, R80) -/

/-- All that family E can decode to (R79). -/
theorem decodeE_ok {x : RegIdx} {nn : Byte} {i : Instr} (h : decodeE x nn = .ok i) :
    (nn = 0x9E#8 ∧ i = .skp x) ∨ (nn = 0xA1#8 ∧ i = .sknp x) := by
  unfold decodeE at h
  split at h <;> first | (cases h; done) | skip
  all_goals
    next hn =>
      obtain rfl := Except.ok.inj h
      simp [← BitVec.toNat_inj, hn]

/-- Family E rejects every other `NN` (R79). -/
theorem decodeE_error_iff {x : RegIdx} {nn : Byte} :
    (∃ r, decodeE x nn = .error r) ↔ nn ∉ [0x9E#8, 0xA1#8] := by
  constructor
  · rintro ⟨r, h⟩ hm
    simp only [List.mem_cons, List.not_mem_nil, or_false] at hm
    rcases hm with rfl | rfl <;> cases h
  · intro hm
    cases h : decodeE x nn with
    | error r => exact ⟨r, rfl⟩
    | ok i => exact absurd (by rcases decodeE_ok h with ⟨rfl, _⟩ | ⟨rfl, _⟩ <;> simp) hm

/-- All that family F can decode to (R80). -/
theorem decodeF_ok {x : RegIdx} {nn : Byte} {i : Instr} (h : decodeF x nn = .ok i) :
    (nn = 0x07#8 ∧ i = .ldVxDT x) ∨ (nn = 0x0A#8 ∧ i = .ldVxK x) ∨ (nn = 0x15#8 ∧ i = .ldDTVx x) ∨
      (nn = 0x18#8 ∧ i = .ldSTVx x) ∨ (nn = 0x1E#8 ∧ i = .addI x) ∨ (nn = 0x29#8 ∧ i = .ldF x) ∨
      (nn = 0x33#8 ∧ i = .ldB x) ∨ (nn = 0x55#8 ∧ i = .storeRegs x) ∨ (nn = 0x65#8 ∧ i = .loadRegs x) := by
  unfold decodeF at h
  split at h <;> first | (cases h; done) | skip
  all_goals
    next hn =>
      obtain rfl := Except.ok.inj h
      simp [← BitVec.toNat_inj, hn]

/-- Family F rejects every other `NN` (R80). -/
theorem decodeF_error_iff {x : RegIdx} {nn : Byte} :
    (∃ r, decodeF x nn = .error r) ↔
      nn ∉ [0x07#8, 0x0A#8, 0x15#8, 0x18#8, 0x1E#8, 0x29#8, 0x33#8, 0x55#8, 0x65#8] := by
  constructor
  · rintro ⟨r, h⟩ hm
    simp only [List.mem_cons, List.not_mem_nil, or_false] at hm
    rcases hm with rfl | rfl | rfl | rfl | rfl | rfl | rfl | rfl | rfl <;> cases h
  · intro hm
    cases h : decodeF x nn with
    | error r => exact ⟨r, rfl⟩
    | ok i =>
      exact absurd (by
        rcases decodeF_ok h with ⟨rfl, _⟩ | ⟨rfl, _⟩ | ⟨rfl, _⟩ | ⟨rfl, _⟩ | ⟨rfl, _⟩ | ⟨rfl, _⟩ | ⟨rfl, _⟩ | ⟨rfl, _⟩ | ⟨rfl, _⟩ <;> simp) hm

/-- The two bytes of a word spell it again (R53). -/
@[simp] theorem wordOfBytes_bytes (w : Word) : wordOfBytes (w.extractLsb' 8 8) (w.extractLsb' 0 8) = w :=
  (split_append (a := 8) (b := 8) w 0).trans (whole_extract w)

end Sys2Proof
end

