-- ==== Sys2Proof/Laws/Display.lean ====
section
/-! SUPPORT. The framebuffer: what one pixel, and a sprite whose pixels are distinct, do to every pixel and to the
collision flag (`44_display.md` R164 to R166). -/

namespace Sys2Proof.Machine

@[simp] theorem pixel_blank (x : Fin 64) (y : Fin 32) : Framebuffer.pixel Framebuffer.blank x y = false := by
  simp [Framebuffer.pixel, Framebuffer.blank]

/-- XOR of one pixel: that pixel is XORed, every other one stays. -/
theorem pixel_xorPixel (fb : Framebuffer) (x x' : Fin 64) (y y' : Fin 32) (b : Bool) :
    (fb.xorPixel x y b).pixel x' y' = (fb.pixel x' y' ^^ (b && decide (x' = x ∧ y' = y))) := by
  cases b
  · simp [Framebuffer.xorPixel]
  · by_cases hy : y' = y
    · subst hy
      by_cases hx : x' = x
      · subst hx; simp [Framebuffer.xorPixel, Framebuffer.pixel]
      · have : x'.val ≠ x.val := fun e => hx (Fin.ext e)
        simp [Framebuffer.xorPixel, Framebuffer.pixel, hx, this]
    · have : y.val ≠ y'.val := fun e => hy (Fin.ext e.symm)
      simp [Framebuffer.xorPixel, Framebuffer.pixel, hy, this]

/-- Whether some dot with a 1 bit falls on (x, y). -/
def hits (dots : List Dot) (x : Fin 64) (y : Fin 32) : Bool := dots.any (fun d => d.bit && decide (x = d.px ∧ y = d.py))

/-- The loop from any start, over dots that fall on distinct pixels: each pixel is XORed with whether a 1 bit falls on
it, and a collision is a 1 bit on a pixel that was on at the start. -/
theorem foldl_plotDot (dots : List Dot) (fb : Framebuffer) (c : Bool)
    (hd : dots.Pairwise (fun d e => ¬ (d.px = e.px ∧ d.py = e.py))) :
    (∀ x y, (dots.foldl (fun acc d => plotDot d.px d.py d.bit acc) (fb, c)).1.pixel x y
        = (fb.pixel x y ^^ hits dots x y)) ∧
    (dots.foldl (fun acc d => plotDot d.px d.py d.bit acc) (fb, c)).2
        = (c || dots.any (fun d => d.bit && fb.pixel d.px d.py)) := by
  induction dots generalizing fb c with
  | nil => simp [hits]
  | cons d ds ih =>
    obtain ⟨hne, hds⟩ := List.pairwise_cons.1 hd
    obtain ⟨h1, h2⟩ := ih (fb.xorPixel d.px d.py d.bit) (c || (d.bit && fb.pixel d.px d.py)) hds
    constructor
    · intro x y
      rw [List.foldl_cons]
      refine (h1 x y).trans ?_
      rw [pixel_xorPixel]
      by_cases hxy : x = d.px ∧ y = d.py
      · obtain ⟨rfl, rfl⟩ := hxy
        have hnone : hits ds d.px d.py = false := by
          simp only [hits, List.any_eq_false]
          intro e he
          simp [hne e he]
        rw [hnone, show hits (d :: ds) d.px d.py = (d.bit || hits ds d.px d.py) by simp [hits], hnone]
        simp
      · rw [show hits (d :: ds) x y = hits ds x y by simp [hits, hxy]]
        simp [hxy]
    · rw [List.foldl_cons]
      refine h2.trans ?_
      have hsame : ∀ e ∈ ds, (e.bit && (fb.xorPixel d.px d.py d.bit).pixel e.px e.py) = (e.bit && fb.pixel e.px e.py) := by
        intro e he
        have : ¬ (e.px = d.px ∧ e.py = d.py) := fun h => hne e he ⟨h.1.symm, h.2.symm⟩
        simp [pixel_xorPixel, this]
      rw [List.any_cons, Bool.or_assoc]
      congr 2
      rw [Bool.eq_iff_iff, List.any_eq_true, List.any_eq_true]
      exact ⟨fun ⟨e, he, h⟩ => ⟨e, he, hsame e he ▸ h⟩, fun ⟨e, he, h⟩ => ⟨e, he, (hsame e he).symm ▸ h⟩⟩

/-- The loop of `DXYN` over dots that fall on distinct pixels. -/
theorem drawDots_eq (fb : Framebuffer) (dots : List Dot)
    (hd : dots.Pairwise (fun d e => ¬ (d.px = e.px ∧ d.py = e.py))) :
    (∀ x y, (drawDots fb dots).1.pixel x y = (fb.pixel x y ^^ hits dots x y)) ∧
    (drawDots fb dots).2 = dots.any (fun d => d.bit && fb.pixel d.px d.py) := by
  have h := foldl_plotDot dots fb false hd
  rw [Bool.false_or] at h
  exact h

/-- The dots of a sprite: one for each row and each of the 8 columns. -/
theorem mem_spriteDots (vx vy : Byte) (r : Nat) (rows : List Byte) (d : Dot) :
    d ∈ spriteDots vx vy r rows ↔ ∃ k c, ∃ h : k < rows.length, c < 8 ∧ d = spriteDot vx vy (r + k) rows[k] c := by
  induction rows generalizing r with
  | nil => simp [spriteDots]
  | cons b bs ih =>
    rw [spriteDots, List.mem_append, ih]
    constructor
    · rintro (h | ⟨k, c, hk, hc, rfl⟩)
      · obtain ⟨c, hc, rfl⟩ := List.mem_map.1 h
        exact ⟨0, c, by simp, List.mem_range.1 hc, rfl⟩
      · exact ⟨k + 1, c, by simpa using hk, hc, by rw [List.getElem_cons_succ, show r + (k + 1) = r + 1 + k by omega]⟩
    · rintro ⟨k, c, hk, hc, rfl⟩
      cases k with
      | zero => exact .inl (List.mem_map.2 ⟨c, List.mem_range.2 hc, rfl⟩)
      | succ k =>
        refine .inr ⟨k, c, by simpa using hk, hc, ?_⟩
        rw [List.getElem_cons_succ, show r + (k + 1) = r + 1 + k by omega]

/-- No pixel is visited twice in one `DXYN` (R166): the columns are distinct modulo 64, and at most 32 rows are distinct
modulo 32. -/
theorem spriteDots_distinct (vx vy : Byte) (r : Nat) (rows : List Byte) (h : rows.length ≤ 32) :
    (spriteDots vx vy r rows).Pairwise (fun d e => ¬ (d.px = e.px ∧ d.py = e.py)) := by
  induction rows generalizing r with
  | nil => simp [spriteDots]
  | cons b bs ih =>
    have hlen : bs.length + 1 ≤ 32 := h
    rw [spriteDots, List.pairwise_append]
    refine ⟨?_, ih (r + 1) (by omega), ?_⟩
    · rw [List.pairwise_map]
      refine (List.pairwise_lt_range (n := 8)).imp_of_mem ?_
      intro c c' hc hc' hlt ⟨hx, _⟩
      have hx := congrArg Fin.val hx
      simp only [spriteDot, Fin.val_ofNat] at hx
      have := List.mem_range.1 hc'
      omega
    · intro d hd e he ⟨_, hy⟩
      obtain ⟨c, _, rfl⟩ := List.mem_map.1 hd
      obtain ⟨k, c', hk, _, rfl⟩ := (mem_spriteDots ..).1 he
      have hy := congrArg Fin.val hy
      simp only [spriteDot, Fin.val_ofNat] at hy
      omega

end Sys2Proof.Machine
end

