-- ==== Sys2Proof/Laws/Memory.lean ====
section
/-! SUPPORT. Memory: a read after a write, and that every memory operation keeps the canonical form. -/

namespace Sys2Proof.Machine

theorem Memory.read_filter_ne (m : Memory) (a b : Nat) :
    Memory.read (m.filter (fun c => c.1 != a)) b = if b = a then unlistedByte else m.read b := by
  induction m with
  | nil => simp [Memory.read]
  | cons c m ih =>
    obtain ⟨k, v⟩ := c
    by_cases hk : k = a
    · subst hk
      by_cases hb : b = k <;> simp_all [Memory.read]
    · by_cases hb : b = k <;> simp_all [Memory.read]

theorem Memory.read_insertCell (m : Memory) (a b : Nat) (v : Byte) (h : ∀ c ∈ m, c.1 ≠ a) :
    Memory.read (Memory.insertCell a v m) b = if b = a then v else m.read b := by
  induction m with
  | nil => simp [Memory.insertCell, Memory.read]
  | cons c m ih =>
    obtain ⟨k, u⟩ := c
    have hk : k ≠ a := h (k, u) (by simp)
    have ih := ih (fun c hc => h c (List.mem_cons_of_mem _ hc))
    by_cases hlt : a < k
    · simp [Memory.insertCell, hlt, Memory.read]
    · rw [Memory.insertCell, if_neg hlt]
      by_cases hb : b = k <;> simp_all [Memory.read]

/-- A read after a write gives the value written, and every other address reads as before; in any memory. -/
@[simp] theorem Memory.read_write (m : Memory) (a b : Nat) (v : Byte) :
    (m.write a v).read b = if b = a then v else m.read b := by
  unfold Memory.write
  by_cases hv : v = unlistedByte
  · simp only [hv, if_true]
    rw [Memory.read_filter_ne]
  · simp only [hv, if_false]
    rw [Memory.read_insertCell _ _ _ _ (by simp), Memory.read_filter_ne]
    by_cases hb : b = a <;> simp [hb]

theorem Memory.mem_insertCell (m : Memory) (a : Nat) (v : Byte) (c : Host.Cell) :
    c ∈ Memory.insertCell a v m ↔ c = (a, v) ∨ c ∈ m := by
  induction m with
  | nil => simp [Memory.insertCell]
  | cons d m ih =>
    by_cases h : a < d.1 <;> simp [Memory.insertCell, h, ih, or_left_comm]

theorem Memory.sorted_insertCell (m : Memory) (a : Nat) (v : Byte) (hs : m.Pairwise (fun c d => c.1 < d.1))
    (h : ∀ c ∈ m, c.1 ≠ a) : (Memory.insertCell a v m).Pairwise (fun c d => c.1 < d.1) := by
  induction m with
  | nil => simp [Memory.insertCell]
  | cons d m ih =>
    obtain ⟨hd, hm⟩ := List.pairwise_cons.1 hs
    have hne : d.1 ≠ a := h d (by simp)
    by_cases hlt : a < d.1
    · simp only [Memory.insertCell, hlt, if_true]
      refine List.pairwise_cons.2 ⟨fun c hc => ?_, hs⟩
      rcases List.mem_cons.1 hc with rfl | hc
      · exact hlt
      · exact hlt.trans (hd c hc)
    · simp only [Memory.insertCell, hlt, if_false]
      refine List.pairwise_cons.2 ⟨fun c hc => ?_, ih hm (fun c hc => h c (List.mem_cons_of_mem _ hc))⟩
      rcases (Memory.mem_insertCell m a v c).1 hc with rfl | hc
      · exact lt_of_le_of_ne (not_lt.1 hlt) hne
      · exact hd c hc

/-- A write inside the space keeps the canonical form. -/
theorem Memory.wf_write {m : Memory} (hm : m.wf) {a : Nat} (ha : a < 4096) (v : Byte) : (m.write a v).wf := by
  obtain ⟨hs, hc⟩ := hm
  have hsf : (m.filter (fun c => c.1 != a)).Pairwise (fun c d => c.1 < d.1) := hs.filter _
  unfold Memory.write
  by_cases hv : v = unlistedByte
  · simp only [hv, if_true]
    exact ⟨hsf, fun c h => hc c (List.mem_filter.1 h).1⟩
  · simp only [hv, if_false]
    refine ⟨Memory.sorted_insertCell _ _ _ hsf (by simp), fun c h => ?_⟩
    rcases (Memory.mem_insertCell _ _ _ _).1 h with rfl | h
    · exact ⟨ha, hv⟩
    · exact hc c (List.mem_filter.1 h).1

/-- Several bytes written: the addresses of the access read as the bytes, every other one as before. -/
theorem Memory.read_writeBytes (m : Memory) (base a : Nat) (vs : List Byte) :
    (m.writeBytes base vs).read a = if base ≤ a then (vs[a - base]?).getD (m.read a) else m.read a := by
  induction vs generalizing m base with
  | nil => simp [Memory.writeBytes]
  | cons v vs ih =>
    rw [Memory.writeBytes, ih, Memory.read_write]
    rcases lt_trichotomy a base with h | h | h
    · have h1 : ¬ base + 1 ≤ a := by omega
      have h2 : ¬ base ≤ a := by omega
      have h3 : a ≠ base := by omega
      simp [h1, h2, h3]
    · subst h; simp
    · have h1 : base + 1 ≤ a := by omega
      have h2 : base ≤ a := by omega
      have h3 : a ≠ base := by omega
      have h4 : a - base = (a - (base + 1)) + 1 := by omega
      simp [h1, h2, h3, h4]

theorem Memory.read_writeBytes_of_lt (m : Memory) {base a : Nat} (vs : List Byte) (h : a < base) :
    (m.writeBytes base vs).read a = m.read a := by
  rw [Memory.read_writeBytes, if_neg (by omega)]

theorem Memory.read_writeBytes_of_ge (m : Memory) {base a : Nat} (vs : List Byte) (h : base + vs.length ≤ a) :
    (m.writeBytes base vs).read a = m.read a := by
  rw [Memory.read_writeBytes, if_pos (by omega), List.getElem?_eq_none (by omega), Option.getD_none]

theorem Memory.read_writeBytes_add (m : Memory) (base : Nat) {k : Nat} (vs : List Byte) (h : k < vs.length) :
    (m.writeBytes base vs).read (base + k) = vs[k] := by
  rw [Memory.read_writeBytes, if_pos (by omega)]
  simp [h]

/-- Several bytes written inside the space keep the canonical form. -/
theorem Memory.wf_writeBytes {m : Memory} (hm : m.wf) {base : Nat} (vs : List Byte)
    (h : vs = [] ∨ base + vs.length ≤ 4096) : (m.writeBytes base vs).wf := by
  induction vs generalizing m base with
  | nil => exact hm
  | cons v vs ih =>
    have h : base + (vs.length + 1) ≤ 4096 := by simpa using h
    exact ih (Memory.wf_write hm (by omega) v) (.inr (by omega))

@[simp] theorem Memory.length_readBytes (m : Memory) (base n : Nat) : (m.readBytes base n).length = n := by
  simp [Memory.readBytes]

@[simp] theorem Memory.getElem_readBytes (m : Memory) (base n k : Nat) (h : k < (m.readBytes base n).length) :
    (m.readBytes base n)[k] = m.read (base + k) := by
  simp [Memory.readBytes]

/-- Reading back what was written at the same addresses. -/
theorem Memory.readBytes_writeBytes (m : Memory) (base : Nat) (vs : List Byte) :
    (m.writeBytes base vs).readBytes base vs.length = vs := by
  apply List.ext_getElem (by simp)
  intro k h1 h2
  rw [Memory.getElem_readBytes, Memory.read_writeBytes_add _ _ _ h2]

/-- All that `State.memRead` can do. -/
theorem State.memRead_eq (s : State) (base n : Nat) (h : n = 0 ∨ base + n ≤ 4096) :
    s.memRead base n = .ok (s.mem.readBytes base n) := if_pos h

/-- All that `State.memWrite` can do inside the space. -/
theorem State.memWrite_eq (s : State) (base : Nat) (vs : List Byte) (h : vs = [] ∨ base + vs.length ≤ 4096) :
    s.memWrite base vs = .ok { s with mem := s.mem.writeBytes base vs } := if_pos h

@[simp] theorem access_ok {α : Type} (a : α) (k : α → Result) : access (.ok a) k = k a := rfl

end Sys2Proof.Machine
end

