-- ==== Sys2Proof/Laws/State.lean ====
section
/-! SUPPORT. One lemma per field per shared update, and one lemma per shared operation that says all it can do. -/

namespace Sys2Proof.Machine

/-! ### `setReg` -/

@[simp] theorem reg_setReg (s : State) (i j : RegIdx) (v : Byte) :
    (s.setReg i v).reg j = if j = i then v else s.reg j := by
  by_cases h : j = i
  · subst h; simp [State.reg, State.setReg]
  · have h' : i.val ≠ j.val := fun e => h (Fin.ext e.symm)
    simp [State.reg, State.setReg, h, h']

@[simp] theorem setReg_mem (s : State) (i : RegIdx) (v : Byte) : (s.setReg i v).mem = s.mem := rfl
@[simp] theorem setReg_I (s : State) (i : RegIdx) (v : Byte) : (s.setReg i v).I = s.I := rfl
@[simp] theorem setReg_pc (s : State) (i : RegIdx) (v : Byte) : (s.setReg i v).pc = s.pc := rfl
@[simp] theorem setReg_stack (s : State) (i : RegIdx) (v : Byte) : (s.setReg i v).stack = s.stack := rfl
@[simp] theorem setReg_sp (s : State) (i : RegIdx) (v : Byte) : (s.setReg i v).sp = s.sp := rfl
@[simp] theorem setReg_dt (s : State) (i : RegIdx) (v : Byte) : (s.setReg i v).dt = s.dt := rfl
@[simp] theorem setReg_st (s : State) (i : RegIdx) (v : Byte) : (s.setReg i v).st = s.st := rfl
@[simp] theorem setReg_fb (s : State) (i : RegIdx) (v : Byte) : (s.setReg i v).fb = s.fb := rfl
@[simp] theorem setReg_key (s : State) (i : RegIdx) (v : Byte) : (s.setReg i v).key = s.key := rfl
@[simp] theorem setReg_waiting (s : State) (i : RegIdx) (v : Byte) : (s.setReg i v).waiting = s.waiting := rfl
@[simp] theorem setReg_halted (s : State) (i : RegIdx) (v : Byte) : (s.setReg i v).halted = s.halted := rfl
@[simp] theorem setReg_fault (s : State) (i : RegIdx) (v : Byte) : (s.setReg i v).fault = s.fault := rfl
@[simp] theorem setReg_loadResult (s : State) (i : RegIdx) (v : Byte) : (s.setReg i v).loadResult = s.loadResult := rfl
@[simp] theorem setReg_draws (s : State) (i : RegIdx) (v : Byte) : (s.setReg i v).draws = s.draws := rfl

/-! ### `jump`, `advance`, `skipIf` -/

@[simp] theorem jump_mem (s : State) (t : Word) : (s.jump t).mem = s.mem := rfl
@[simp] theorem jump_x (s : State) (t : Word) : (s.jump t).x = s.x := rfl
@[simp] theorem jump_I (s : State) (t : Word) : (s.jump t).I = s.I := rfl
@[simp] theorem jump_pc (s : State) (t : Word) : (s.jump t).pc = t := rfl
@[simp] theorem jump_stack (s : State) (t : Word) : (s.jump t).stack = s.stack := rfl
@[simp] theorem jump_sp (s : State) (t : Word) : (s.jump t).sp = s.sp := rfl
@[simp] theorem jump_dt (s : State) (t : Word) : (s.jump t).dt = s.dt := rfl
@[simp] theorem jump_st (s : State) (t : Word) : (s.jump t).st = s.st := rfl
@[simp] theorem jump_fb (s : State) (t : Word) : (s.jump t).fb = s.fb := rfl
@[simp] theorem jump_key (s : State) (t : Word) : (s.jump t).key = s.key := rfl
@[simp] theorem jump_waiting (s : State) (t : Word) : (s.jump t).waiting = s.waiting := rfl
@[simp] theorem jump_halted (s : State) (t : Word) : (s.jump t).halted = s.halted := rfl
@[simp] theorem jump_fault (s : State) (t : Word) : (s.jump t).fault = s.fault := rfl
@[simp] theorem jump_loadResult (s : State) (t : Word) : (s.jump t).loadResult = s.loadResult := rfl
@[simp] theorem jump_draws (s : State) (t : Word) : (s.jump t).draws = s.draws := rfl

/-- The advance is a jump to `pc` + 2, so that the lemmas of `jump` say all of it. -/
theorem advance_eq_jump (s : State) : s.advance = s.jump (s.pc + 2) := rfl

@[simp] theorem advance_mem (s : State) : s.advance.mem = s.mem := rfl
@[simp] theorem advance_x (s : State) : s.advance.x = s.x := rfl
@[simp] theorem advance_I (s : State) : s.advance.I = s.I := rfl
@[simp] theorem advance_pc (s : State) : s.advance.pc = s.pc + 2 := rfl
@[simp] theorem advance_stack (s : State) : s.advance.stack = s.stack := rfl
@[simp] theorem advance_sp (s : State) : s.advance.sp = s.sp := rfl
@[simp] theorem advance_dt (s : State) : s.advance.dt = s.dt := rfl
@[simp] theorem advance_st (s : State) : s.advance.st = s.st := rfl
@[simp] theorem advance_fb (s : State) : s.advance.fb = s.fb := rfl
@[simp] theorem advance_key (s : State) : s.advance.key = s.key := rfl
@[simp] theorem advance_waiting (s : State) : s.advance.waiting = s.waiting := rfl
@[simp] theorem advance_halted (s : State) : s.advance.halted = s.halted := rfl
@[simp] theorem advance_fault (s : State) : s.advance.fault = s.fault := rfl
@[simp] theorem advance_loadResult (s : State) : s.advance.loadResult = s.loadResult := rfl
@[simp] theorem advance_draws (s : State) : s.advance.draws = s.draws := rfl

/-- All that a skip does. -/
theorem skipIf_eq (s : State) (c : Bool) : s.skipIf c = s.jump (if c then s.pc + 2 else s.pc) := by
  cases c <;> rfl

/-! ### `takeFault` -/

@[simp] theorem takeFault_mem (s : State) (k : FaultKind) (a w : Word) : (s.takeFault k a w).mem = s.mem := rfl
@[simp] theorem takeFault_x (s : State) (k : FaultKind) (a w : Word) : (s.takeFault k a w).x = s.x := rfl
@[simp] theorem takeFault_I (s : State) (k : FaultKind) (a w : Word) : (s.takeFault k a w).I = s.I := rfl
@[simp] theorem takeFault_pc (s : State) (k : FaultKind) (a w : Word) : (s.takeFault k a w).pc = s.pc := rfl
@[simp] theorem takeFault_stack (s : State) (k : FaultKind) (a w : Word) : (s.takeFault k a w).stack = s.stack := rfl
@[simp] theorem takeFault_sp (s : State) (k : FaultKind) (a w : Word) : (s.takeFault k a w).sp = s.sp := rfl
@[simp] theorem takeFault_dt (s : State) (k : FaultKind) (a w : Word) : (s.takeFault k a w).dt = s.dt := rfl
@[simp] theorem takeFault_st (s : State) (k : FaultKind) (a w : Word) : (s.takeFault k a w).st = s.st := rfl
@[simp] theorem takeFault_fb (s : State) (k : FaultKind) (a w : Word) : (s.takeFault k a w).fb = s.fb := rfl
@[simp] theorem takeFault_key (s : State) (k : FaultKind) (a w : Word) : (s.takeFault k a w).key = s.key := rfl
@[simp] theorem takeFault_waiting (s : State) (k : FaultKind) (a w : Word) :
    (s.takeFault k a w).waiting = s.waiting := rfl
@[simp] theorem takeFault_halted (s : State) (k : FaultKind) (a w : Word) : (s.takeFault k a w).halted = true := rfl
@[simp] theorem takeFault_fault (s : State) (k : FaultKind) (a w : Word) : (s.takeFault k a w).fault = ⟨k, a, w⟩ := rfl
@[simp] theorem takeFault_loadResult (s : State) (k : FaultKind) (a w : Word) :
    (s.takeFault k a w).loadResult = s.loadResult := rfl
@[simp] theorem takeFault_draws (s : State) (k : FaultKind) (a w : Word) : (s.takeFault k a w).draws = s.draws := rfl

/-- All that a raise in the execute stage of a step that started at `s` does: the recorded `pc` is the start. -/
theorem raise_advance (k : FaultKind) (i : Instr) (s : State) :
    raise k i s.advance = .next (s.advance.takeFault k s.pc (encode i)) := by
  simp [raise]

/-! ### `reg` through updates that do not touch a register -/

theorem reg_congr {s t : State} (h : t.x = s.x) (i : RegIdx) : t.reg i = s.reg i := by
  rw [State.reg, State.reg, h]

@[simp] theorem reg_jump (s : State) (t : Word) (i : RegIdx) : (s.jump t).reg i = s.reg i := rfl
@[simp] theorem reg_advance (s : State) (i : RegIdx) : s.advance.reg i = s.reg i := rfl
@[simp] theorem reg_takeFault (s : State) (k : FaultKind) (a w : Word) (i : RegIdx) :
    (s.takeFault k a w).reg i = s.reg i := rfl

/-! ### Register lists -/

theorem putRegs_getElem (vs : List Byte) (i : Nat) (x : Vector Byte 16) (j : Nat) (hj : j < 16) :
    (putRegs i vs x)[j] = if i ≤ j then (vs[j - i]?).getD x[j] else x[j] := by
  induction vs generalizing i x with
  | nil => simp [putRegs]
  | cons v vs ih =>
    rw [putRegs, ih, Vector.getElem_setIfInBounds]
    rcases lt_trichotomy j i with h | h | h
    · simp [show ¬ i + 1 ≤ j by omega, show ¬ i ≤ j by omega, show i ≠ j by omega]
    · subst h; simp
    · simp [show i + 1 ≤ j by omega, show i ≤ j by omega, show i ≠ j by omega,
        show j - i = (j - (i + 1)) + 1 by omega]

@[simp] theorem length_regsUpTo (s : State) (x : RegIdx) : (s.regsUpTo x).length = x.val + 1 := by
  simp [State.regsUpTo]

theorem getElem_regsUpTo (s : State) (x : RegIdx) (k : Nat) (h : k < (s.regsUpTo x).length) :
    (s.regsUpTo x)[k] = s.reg ⟨k, by have := length_regsUpTo s x; omega⟩ := by
  simp [State.regsUpTo, State.reg]

/-! ### Operands -/

@[simp] theorem toNat_addrWord (nnn : Addr) : (addrWord nnn).toNat = nnn.toNat := by
  have := nnn.isLt
  simp [addrWord]; omega

@[simp] theorem toNat_byteWord (v : Byte) : (byteWord v).toNat = v.toNat := by
  have := v.isLt
  simp [byteWord]; omega

theorem inBounds_iff (s : State) (n : Nat) : s.inBounds n = true ↔ n = 0 ∨ s.I.toNat + n ≤ 4096 := by
  simp [State.inBounds]

/-! ### The stack -/

/-- All that a push can do. -/
theorem push_eq (s : State) (v : Word) :
    s.push v = if h : s.sp.val < 16 then
        some { s with stack := s.stack.set s.sp.val v h, sp := ⟨s.sp.val + 1, Nat.succ_lt_succ h⟩ } else none := rfl

theorem push_full (s : State) (v : Word) (h : s.sp.val = 16) : s.push v = none := by
  rw [push_eq, dif_neg (by omega)]

theorem pop_empty (s : State) (h : s.sp.val = 0) : s.pop = none := by
  rw [State.pop, dif_neg (by omega)]

/-- A pop gives back what a push put in, and the rest of the state but the stale entry. -/
theorem pop_push {s t : State} {v : Word} (h : s.push v = some t) :
    t.pop = some (v, { s with stack := t.stack }) := by
  rw [push_eq] at h
  split at h
  · next hlt =>
    obtain rfl := Option.some.inj h
    simp [State.pop]
  · cases h

/-! ### Keys -/

theorem getElem_setKey (s : State) (id : Nat) (v : Bool) (k : Fin 16) :
    (s.setKey id v).key[k] = if id = k.val then v else s.key[k] := by
  simp [State.setKey, Vector.getElem_setIfInBounds]

theorem pressed_eq (s : State) (v : Byte) :
    s.pressed v = if h : v.toNat < 16 then s.key[v.toNat] else false := by
  by_cases h : v.toNat < 16 <;> simp [State.pressed, h]

end Sys2Proof.Machine
end

