-- ==== Sys2Proof/Laws/Frame.lean ====
section
/-! SUPPORT. The frame of each shared update, and how frames compose. -/

namespace Sys2Proof.Machine

theorem ChangesOnly.refl (s : State) (P : Part → Prop) : ChangesOnly s s P := by
  refine ⟨fun p _ => ?_⟩
  cases p <;> rfl

theorem ChangesOnly.trans {s t u : State} {P : Part → Prop} (h : ChangesOnly s t P) (h' : ChangesOnly t u P) :
    ChangesOnly s u P := by
  refine ⟨fun p hp => ?_⟩
  have a := h.agree p hp
  have b := h'.agree p hp
  cases p <;> exact Eq.trans b a

theorem ChangesOnly.weaken {s t : State} {P Q : Part → Prop} (h : ChangesOnly s t P) (hPQ : ∀ p, P p → Q p) :
    ChangesOnly s t Q :=
  ⟨fun p hp => h.agree p (fun hP => hp (hPQ p hP))⟩

theorem changesOnly_setReg (s : State) (x : RegIdx) (v : Byte) : ChangesOnly s (s.setReg x v) (fun p => p = .reg x) := by
  refine ⟨fun p hp => ?_⟩
  cases p <;> try rfl
  next i =>
    have : i ≠ x := fun e => hp (e ▸ rfl)
    simp [Agree, this]

theorem changesOnly_jump (s : State) (w : Word) : ChangesOnly s (s.jump w) (fun p => p = .pc) := by
  refine ⟨fun p hp => ?_⟩
  cases p <;> first | rfl | exact absurd rfl hp

theorem changesOnly_advance (s : State) : ChangesOnly s s.advance (fun p => p = .pc) := changesOnly_jump s (s.pc + 2)

theorem changesOnly_skipIf (s : State) (c : Bool) : ChangesOnly s (s.skipIf c) (fun p => p = .pc) := by
  rw [skipIf_eq]
  exact changesOnly_jump ..

theorem changesOnly_takeFault (s : State) (k : FaultKind) (a w : Word) :
    ChangesOnly s (s.takeFault k a w) (fun p => p = .halted ∨ p = .fault) := by
  refine ⟨fun p hp => ?_⟩
  cases p <;> first | rfl | exact absurd (.inl rfl) hp | exact absurd (.inr rfl) hp

/-- A raise in the execute stage is a fault taken, and always answers a next state. -/
theorem raise_faulted (k : FaultKind) (i : Instr) (s : State) :
    ∃ t, raise k i s = .next t ∧ Faulted k (encode i) s t :=
  ⟨_, rfl, rfl, rfl, changesOnly_takeFault ..⟩

theorem changesOnly_writeBytes (s : State) (base : Nat) (vs : List Byte) :
    ChangesOnly s { s with mem := s.mem.writeBytes base vs } (fun p => ∃ k, k < vs.length ∧ p = .byte (base + k)) := by
  refine ⟨fun p hp => ?_⟩
  cases p <;> try rfl
  next a =>
    by_cases h1 : a < base
    · exact Memory.read_writeBytes_of_lt s.mem vs h1
    · by_cases h2 : base + vs.length ≤ a
      · exact Memory.read_writeBytes_of_ge s.mem vs h2
      · exact absurd ⟨a - base, by omega, by congr 1; omega⟩ hp

/-- All that the two writes of a flag-writing instruction do (R133). -/
theorem changesOnly_setFlagThenResult (s : State) (x : RegIdx) (f : Bool) (r : Byte) :
    ChangesOnly s (s.setFlagThenResult x f r) (fun p => p = .reg x ∨ p = .reg 15) :=
  ((changesOnly_setReg s 15 (flagByte f)).weaken (fun _ => .inr)).trans
    ((changesOnly_setReg _ x r).weaken (fun _ => .inl))

@[simp] theorem reg_setFlagThenResult_dest (s : State) (x : RegIdx) (f : Bool) (r : Byte) :
    (s.setFlagThenResult x f r).reg x = r := by
  simp [State.setFlagThenResult]

theorem reg_setFlagThenResult_flag (s : State) {x : RegIdx} (f : Bool) (r : Byte) (h : x ≠ 15) :
    (s.setFlagThenResult x f r).reg 15 = flagByte f := by
  simp [State.setFlagThenResult, h.symm, Config.flagReg]

end Sys2Proof.Machine
end

