-- ==== Sys2Proof/Laws/Meanings.lean ====
section
/-! SUPPORT. The meanings that test a bound or the stack, each as one equation where the test passes, and the shared
operations under them. Where the test fails the meaning is a raise, which `raise_faulted` says all about. -/

namespace Sys2Proof.Machine

/-! ### Calls and returns -/

theorem execRet_eq (s : State) (k : Fin 16) (h : s.sp.val = k.val + 1) :
    execRet s = .next ({ s with sp := ⟨k.val, by omega⟩ }.jump s.stack[k]) := by
  have hp : s.pop = some (s.stack[k], { s with sp := ⟨k.val, by omega⟩ }) := by simp [State.pop, h]
  rw [execRet, hp]

theorem callTo_eq (i : Instr) (nnn : Addr) (s : State) (h : s.sp.val < 16) :
    callTo i nnn s = .next ({ s with
      stack := s.stack.set s.sp.val s.pc h
      sp := ⟨s.sp.val + 1, Nat.succ_lt_succ h⟩ }.jump (addrWord nnn)) := by
  rw [callTo, push_eq, dif_pos h]

theorem callTo_full (i : Instr) (nnn : Addr) (s : State) (h : s.sp.val = 16) :
    callTo i nnn s = raise .stackOverflow i s := by
  rw [callTo, push_full _ _ h]

/-! ### Memory transfer -/

theorem execLdB_eq (x : RegIdx) (s : State) (h : s.I.toNat + 2 < 4096) :
    execLdB x s = .next { s with mem := s.mem.writeBytes s.I.toNat (decimalDigits (s.reg x)) } := by
  have hw : s.I.toNat + (decimalDigits (s.reg x)).length ≤ 4096 := by simp only [decimalDigits, List.length_cons]; simp; omega
  rw [execLdB, if_pos ((inBounds_iff ..).2 (.inr (by omega))), State.memWrite_eq _ _ _ (.inr hw), access_ok]

theorem toNat_bumpI (s : State) (x : RegIdx) : (s.bumpI x).I.toNat = (s.I.toNat + x.val + 1) % 65536 := by
  have := x.isLt
  simp [State.bumpI, BitVec.toNat_add]
  omega

theorem changesOnly_bumpI (s : State) (x : RegIdx) : ChangesOnly s (s.bumpI x) (fun p => p = .index) := by
  refine ⟨fun p hp => ?_⟩
  cases p <;> first | rfl | exact absurd rfl hp

theorem execStoreRegs_eq (x : RegIdx) (s : State) (h : s.I.toNat + x.val < 4096) :
    execStoreRegs x s = .next ({ s with mem := s.mem.writeBytes s.I.toNat (s.regsUpTo x) }.bumpI x) := by
  have hw : s.I.toNat + (s.regsUpTo x).length ≤ 4096 := by rw [length_regsUpTo]; omega
  rw [execStoreRegs, if_pos ((inBounds_iff ..).2 (.inr (by omega))), State.memWrite_eq _ _ _ (.inr hw), access_ok]

/-- What `FX55` leaves in a byte it stores. -/
theorem read_storedRegs (x i : RegIdx) (s : State) (h : i ≤ x) :
    (s.mem.writeBytes s.I.toNat (s.regsUpTo x)).read (s.I.toNat + i.val) = s.reg i := by
  have h' : i.val ≤ x.val := h
  have hl : i.val < (s.regsUpTo x).length := by rw [length_regsUpTo]; omega
  exact (Memory.read_writeBytes_add s.mem _ _ hl).trans (getElem_regsUpTo ..)

theorem execLoadRegs_eq (x : RegIdx) (s : State) (h : s.I.toNat + x.val < 4096) :
    execLoadRegs x s =
      .next ({ s with x := putRegs 0 (s.mem.readBytes s.I.toNat (x.val + 1)) s.x }.bumpI x) := by
  rw [execLoadRegs, if_pos ((inBounds_iff ..).2 (.inr (by omega))), State.memRead_eq _ _ _ (.inr (by omega)), access_ok]

/-- What a register of a list holds after the list is filled from memory: those past `X` keep their value. -/
theorem getElem_putRegs_readBytes (m : Memory) (base : Nat) (x i : RegIdx) (r : Vector Byte 16) :
    (putRegs 0 (m.readBytes base (x.val + 1)) r)[i] = if i ≤ x then m.read (base + i.val) else r[i] := by
  have hi := i.isLt
  show (putRegs 0 (m.readBytes base (x.val + 1)) r)[i.val] = _
  rw [putRegs_getElem]
  by_cases h : i ≤ x
  · have h' : i.val ≤ x.val := h
    simp [h, show i.val < x.val + 1 by omega]
  · have h' : ¬ i.val ≤ x.val := h
    simp [h, show ¬ i.val < x.val + 1 by omega]

/-! ### Drawing -/

/-- The framebuffer and the collision flag that `DXYN` leaves. -/
def drawn (x y : RegIdx) (n : Nibble) (s : State) : Framebuffer × Bool :=
  drawDots s.fb (spriteDots (s.reg x) (s.reg y) 0 (s.mem.readBytes s.I.toNat n.toNat))

theorem execDrw_eq (x y : RegIdx) (n : Nibble) (s : State) (h : n.toNat = 0 ∨ s.I.toNat + n.toNat ≤ 4096) :
    execDrw x y n s = .next ({ s with fb := (drawn x y n s).1 }.setReg 15 (flagByte (drawn x y n s).2)) := by
  rw [execDrw, if_pos ((inBounds_iff ..).2 h), State.memRead_eq _ _ _ h, access_ok]
  rfl

/-- The dots of a sprite against its closed form: a 1 bit falls on a pixel exactly when `spriteBitAt` says so. -/
theorem hits_spriteDots (x y : RegIdx) (n : Nibble) (s : State) (px : Fin 64) (py : Fin 32) :
    hits (spriteDots (s.reg x) (s.reg y) 0 (s.mem.readBytes s.I.toNat n.toNat)) px py = s.spriteBitAt x y n px py := by
  have hx := (s.reg x).isLt
  have hy := (s.reg y).isLt
  have hn := n.isLt
  rw [Bool.eq_iff_iff, hits, List.any_eq_true]
  simp only [State.spriteBitAt, Bool.and_eq_true, decide_eq_true_eq]
  constructor
  · rintro ⟨d, hd, hb, rfl, rfl⟩
    obtain ⟨k, c, hk, hc, rfl⟩ := (mem_spriteDots ..).1 hd
    rw [Memory.length_readBytes] at hk
    simp only [spriteDot, Fin.val_ofNat, Memory.getElem_readBytes] at hb ⊢
    have e1 : (((s.reg x).toNat + c) % 64 + 256 - (s.reg x).toNat) % 64 = c := by omega
    have e2 : (((s.reg y).toNat + (0 + k)) % 32 + 256 - (s.reg y).toNat) % 32 = k := by omega
    rw [e1, e2]
    exact ⟨⟨hc, hk⟩, hb⟩
  · rintro ⟨⟨hc, hr⟩, hb⟩
    refine ⟨_, (mem_spriteDots ..).2 ⟨_, _, by rwa [Memory.length_readBytes], hc, rfl⟩, ?_, ?_, ?_⟩
    · simpa [spriteDot] using hb
    · apply Fin.ext
      simp only [spriteDot, Fin.val_ofNat]
      omega
    · apply Fin.ext
      simp only [spriteDot, Fin.val_ofNat]
      omega

theorem flagByte_eq_one (b : Bool) : flagByte b = 1 ↔ b = true := by cases b <;> decide

theorem flagByte_cases (b : Bool) : flagByte b = 1 ∨ flagByte b = 0 := by cases b <;> simp [flagByte]

end Sys2Proof.Machine
end

