-- ==== Sys2Proof/Laws/Cycle.lean ====
section
/-! SUPPORT. What a step can do, said once: the word it fetches, its four cases, and when an execute stage raises. -/

namespace Sys2Proof.Machine

/-! ### Fetch (R91, R92) -/

/-- The word two bytes spell is the high one times 256 plus the low one (R53). -/
theorem wordOfBytes_eq_ofNat (hi lo : Byte) : wordOfBytes hi lo = BitVec.ofNat 16 (hi.toNat * 256 + lo.toNat) := by
  apply BitVec.eq_of_toNat_eq
  have h1 := hi.isLt
  have h2 := lo.isLt
  show (hi ++ lo).toNat = _
  rw [BitVec.toNat_append, Nat.shiftLeft_eq, Nat.mul_comm, ← Nat.two_pow_add_eq_or_of_lt h2, BitVec.toNat_ofNat]
  omega

theorem fetchWord_eq (s : State) (h : s.pc.toNat ≤ 4094) :
    s.fetchWord = some (wordOfBytes (s.mem.read s.pc.toNat) (s.mem.read (s.pc.toNat + 1))) :=
  if_pos (by show s.pc.toNat + 1 < 4096; omega)

theorem fetchWord_none (s : State) (h : 4095 ≤ s.pc.toNat) : s.fetchWord = none :=
  if_neg (by show ¬ s.pc.toNat + 1 < 4096; omega)

theorem pc_le_of_fetchWord {s : State} {w : Word} (h : s.fetchWord = some w) : s.pc.toNat ≤ 4094 := by
  by_contra hn
  rw [fetchWord_none s (by omega)] at h
  cases h

/-! ### Run states (R35) -/

theorem runState_running_iff (s : State) : s.runState = .running ↔ s.halted = false ∧ s.waiting = none := by
  unfold State.runState
  cases s.halted <;> cases s.waiting <;> simp

theorem runState_waiting_iff (s : State) : s.runState = .waiting ↔ s.halted = false ∧ s.waiting.isSome = true := by
  unfold State.runState
  cases s.halted <;> cases s.waiting <;> simp

theorem runState_halted_iff (s : State) : s.runState = .halted ↔ s.halted = true := by
  unfold State.runState
  cases s.halted <;> cases s.waiting <;> simp

/-! ### The verdict on a run (R248) -/

theorem verdict_eq_failed_iff (a : Addr) (s : State) : s.verdict a = .failed ↔ s.halted = true := by
  rw [← runState_halted_iff, State.verdict]
  cases s.runState <;> cases s.atSelfJump a <;> simp

theorem verdict_eq_ended_iff (a : Addr) (s : State) :
    s.verdict a = .ended ↔ s.runState = .running ∧ s.pc = addrWord a ∧ s.fetchWord = some (encode (.jp a)) := by
  have hj : s.atSelfJump a = true ↔ s.pc = addrWord a ∧ s.fetchWord = some (encode (.jp a)) := by
    simp [State.atSelfJump]
  rw [← hj, State.verdict]
  cases s.runState <;> cases s.atSelfJump a <;> simp

/-! ### The cases of a step -/

theorem cycle_idle (ex : Instr → State → Result) {s : State} (h : s.runState ≠ .running) : cycle ex s = .next s :=
  if_neg h

theorem cycle_ok (ex : Instr → State → Result) {s : State} {w : Word} {i : Instr} (h : s.runState = .running)
    (hf : s.fetchWord = some w) (hd : decodeWord w = .ok i) : cycle ex s = ex i s.advance := by
  rw [cycle, if_pos h, hf]
  simp only [decodeAndExecute, hd]

theorem cycle_illegal (ex : Instr → State → Result) {s : State} {w : Word} {r : Reject} (h : s.runState = .running)
    (hf : s.fetchWord = some w) (hd : decodeWord w = .error r) :
    cycle ex s = .next (s.advance.takeFault .illegalInstruction s.pc w) := by
  rw [cycle, if_pos h, hf]
  simp only [decodeAndExecute, hd]

theorem cycle_unfetchable (ex : Instr → State → Result) {s : State} (h : s.runState = .running)
    (hf : s.fetchWord = none) : cycle ex s = .next (s.takeFault .outOfBoundsFetch s.pc 0) := by
  rw [cycle, if_pos h, hf]

/-- All that a step over any execute stage can do. -/
theorem cycle_cases (ex : Instr → State → Result) (s : State) :
    (s.runState ≠ .running ∧ cycle ex s = .next s) ∨
    (s.runState = .running ∧ 4095 ≤ s.pc.toNat ∧ s.fetchWord = none ∧
      cycle ex s = .next (s.takeFault .outOfBoundsFetch s.pc 0)) ∨
    (∃ w r, s.runState = .running ∧ s.fetchWord = some w ∧ decodeWord w = .error r ∧
      cycle ex s = .next (s.advance.takeFault .illegalInstruction s.pc w)) ∨
    (∃ w i, s.runState = .running ∧ s.fetchWord = some w ∧ decodeWord w = .ok i ∧ cycle ex s = ex i s.advance) := by
  by_cases h : s.runState = .running
  · by_cases hpc : s.pc.toNat ≤ 4094
    · have hf := fetchWord_eq s hpc
      cases hd : decodeWord (wordOfBytes (s.mem.read s.pc.toNat) (s.mem.read (s.pc.toNat + 1))) with
      | ok i => exact .inr (.inr (.inr ⟨_, i, h, hf, hd, cycle_ok ex h hf hd⟩))
      | error r => exact .inr (.inr (.inl ⟨_, r, h, hf, hd, cycle_illegal ex h hf hd⟩))
    · have hf := fetchWord_none s (by omega)
      exact .inr (.inl ⟨h, by omega, hf, cycle_unfetchable ex h hf⟩)
  · exact .inl ⟨h, cycle_idle ex h⟩

/-! ### When an execute stage raises (R200) -/

/-- The fault the execute stage of an instruction raises, if any. -/
def faultOf (i : Instr) (s : State) : Option FaultKind :=
  match i with
  | .ret => if s.sp.val = 0 then some .stackUnderflow else none
  | .sys _ | .call _ => if s.sp.val = 16 then some .stackOverflow else none
  | .ldB _ => if 4096 ≤ s.I.toNat + 2 then some .indexOutOfBounds else none
  | .storeRegs x | .loadRegs x => if 4096 ≤ s.I.toNat + x.val then some .indexOutOfBounds else none
  | .drw _ _ n => if 1 ≤ n.toNat ∧ 4096 ≤ s.I.toNat + n.toNat - 1 then some .indexOutOfBounds else none
  | _ => none

/-- The bound that `FX33`, `FX55`, `FX65` and `DXYN` test fails (R205). -/
def PastEnd (i : Instr) (s : State) : Prop :=
  (∃ x, i = .ldB x ∧ 4096 ≤ s.I.toNat + 2) ∨
  (∃ x, (i = .storeRegs x ∨ i = .loadRegs x) ∧ 4096 ≤ s.I.toNat + x.val) ∨
  (∃ x y n, i = .drw x y n ∧ 1 ≤ n.toNat ∧ 4096 ≤ s.I.toNat + n.toNat - 1)

/-- Which fault an execute stage raises, and when. -/
theorem faultOf_eq_some_iff (i : Instr) (s : State) (k : FaultKind) :
    faultOf i s = some k ↔
      (k = .stackUnderflow ∧ i = .ret ∧ s.sp.val = 0) ∨
      (k = .stackOverflow ∧ (∃ nnn, i = .call nnn ∨ i = .sys nnn) ∧ s.sp.val = 16) ∨
      (k = .indexOutOfBounds ∧ PastEnd i s) := by
  cases i <;> simp only [faultOf, PastEnd, Option.ite_none_right_eq_some, Option.some.injEq] <;> aesop

/-- When an execute stage raises nothing. -/
theorem faultOf_eq_none_iff (i : Instr) (s : State) :
    faultOf i s = none ↔
      ¬ (i = .ret ∧ s.sp.val = 0) ∧ ¬ ((∃ nnn, i = .call nnn ∨ i = .sys nnn) ∧ s.sp.val = 16) ∧ ¬ PastEnd i s := by
  cases i <;> simp only [faultOf, PastEnd, ite_eq_right_iff, reduceCtorEq] <;> aesop

/-- Where `faultOf` names a fault, the execute stage is its raise and nothing else. -/
theorem exec_raises {i : Instr} {s : State} {k : FaultKind} (h : faultOf i s = some k) : exec i s = raise k i s := by
  cases i <;> simp only [faultOf, reduceCtorEq] at h
  case ret =>
    split at h <;> cases h
    next hs => simp only [exec, execRet, pop_empty s hs]
  case sys nnn =>
    split at h <;> cases h
    next hs => exact callTo_full _ nnn s hs
  case call nnn =>
    split at h <;> cases h
    next hs => exact callTo_full _ nnn s hs
  case ldB x =>
    split at h <;> cases h
    next hs => rw [exec, execLdB, if_neg (by rw [inBounds_iff]; omega)]
  case storeRegs x =>
    split at h <;> cases h
    next hs => rw [exec, execStoreRegs, if_neg (by rw [inBounds_iff]; omega)]
  case loadRegs x =>
    split at h <;> cases h
    next hs => rw [exec, execLoadRegs, if_neg (by rw [inBounds_iff]; omega)]
  case drw x y n =>
    split at h <;> cases h
    next hs => rw [exec, execDrw, if_neg (by rw [inBounds_iff]; omega)]

theorem changesOnly_fb (s : State) (fb : Framebuffer) :
    ChangesOnly s { s with fb := fb } (fun p => ∃ x y, p = .pixel x y) := by
  refine ⟨fun p hp => ?_⟩
  cases p <;> first | rfl | exact absurd ⟨_, _, rfl⟩ hp

/-- What an execute stage that raises nothing leaves alone, whatever the instruction: the run state's `halted`, the
fault record, the keys, the `LOAD` result and the canonical form of memory. -/
structure Quiet (s t : State) : Prop where
  halted : t.halted = s.halted
  fault : t.fault = s.fault
  key : t.key = s.key
  loadResult : t.loadResult = s.loadResult
  mem : s.mem.wf → t.mem.wf

/-- Where `faultOf` names none, the execute stage answers a next state and raises nothing. -/
theorem exec_quiet {i : Instr} {s : State} (h : faultOf i s = none) : ∃ t, exec i s = .next t ∧ Quiet s t := by
  cases i <;> simp only [faultOf, ite_eq_right_iff, reduceCtorEq, imp_false] at h <;>
    try exact ⟨_, rfl, rfl, rfl, rfl, rfl, id⟩
  case ret =>
    have hk : s.sp.val - 1 < 16 := by omega
    exact ⟨_, execRet_eq s ⟨s.sp.val - 1, hk⟩ (by simp only; omega), rfl, rfl, rfl, rfl, id⟩
  case sys nnn => exact ⟨_, callTo_eq _ nnn s (by omega), rfl, rfl, rfl, rfl, id⟩
  case call nnn => exact ⟨_, callTo_eq _ nnn s (by omega), rfl, rfl, rfl, rfl, id⟩
  case seImm x nn => exact ⟨_, rfl, by rw [skipIf_eq]; exact ⟨rfl, rfl, rfl, rfl, id⟩⟩
  case sneImm x nn => exact ⟨_, rfl, by rw [skipIf_eq]; exact ⟨rfl, rfl, rfl, rfl, id⟩⟩
  case seReg x y => exact ⟨_, rfl, by rw [skipIf_eq]; exact ⟨rfl, rfl, rfl, rfl, id⟩⟩
  case sneReg x y => exact ⟨_, rfl, by rw [skipIf_eq]; exact ⟨rfl, rfl, rfl, rfl, id⟩⟩
  case skp x => exact ⟨_, rfl, by rw [skipIf_eq]; exact ⟨rfl, rfl, rfl, rfl, id⟩⟩
  case sknp x => exact ⟨_, rfl, by rw [skipIf_eq]; exact ⟨rfl, rfl, rfl, rfl, id⟩⟩
  case ldB x =>
    refine ⟨_, execLdB_eq x s (by omega), rfl, rfl, rfl, rfl, fun hm => Memory.wf_writeBytes hm _ (.inr ?_)⟩
    simp only [decimalDigits, List.length_cons, List.length_nil]
    omega
  case storeRegs x =>
    refine ⟨_, execStoreRegs_eq x s (by omega), rfl, rfl, rfl, rfl, fun hm => Memory.wf_writeBytes hm _ (.inr ?_)⟩
    rw [length_regsUpTo]
    omega
  case loadRegs x => exact ⟨_, execLoadRegs_eq x s (by omega), rfl, rfl, rfl, rfl, id⟩
  case drw x y n => exact ⟨_, execDrw_eq x y n s (by omega), rfl, rfl, rfl, rfl, id⟩

/-- All that the execute stage of any instruction can do. -/
theorem exec_cases (i : Instr) (s : State) :
    (∃ k, faultOf i s = some k ∧ exec i s = .next (s.takeFault k (s.pc - 2) (encode i))) ∨
    (faultOf i s = none ∧ ∃ t, exec i s = .next t ∧ Quiet s t) := by
  cases h : faultOf i s with
  | some k => exact .inl ⟨k, rfl, exec_raises h⟩
  | none => exact .inr ⟨rfl, exec_quiet h⟩

end Sys2Proof.Machine
end

