-- ==== Sys2Proof/Laws/Events.lean ====
section
/-! SUPPORT. What the host's events and the placing of a word can do, each said once. -/

namespace Sys2Proof.Machine

/-- A step with its random input given runs `exec`, but for `CXNN` (R99). -/
theorem withRnd_cases (rnd : Byte) (i : Instr) (s : State) :
    (∃ x nn, i = .rnd x nn ∧ withRnd rnd exec i s = rndWith rnd x nn s) ∨
    ((∀ x nn, i ≠ .rnd x nn) ∧ withRnd rnd exec i s = exec i s) := by
  cases i
  case rnd x nn => exact .inl ⟨x, nn, rfl, rfl⟩
  all_goals exact .inr ⟨nofun, rfl⟩

/-- The two cases of a `LOAD` (R243, R244). -/
theorem load_cases (bs : List Byte) (s : State) :
    (bs.length ≤ 3584 ∧ s.load bs = .next { ({ s with mem := s.mem.writeBytes 0x200 bs } : State).jump 0x200 with
      loadResult := some .ok }) ∨
    (3584 < bs.length ∧ s.load bs = .next { s with loadResult := some .programTooLarge }) := by
  by_cases h : bs.length ≤ 3584
  · have hc : bs.length ≤ Config.progMax := h
    refine .inl ⟨h, ?_⟩
    rw [State.load, if_pos hc, State.memWrite_eq _ _ _ (.inr (by show 0x200 + _ ≤ _; omega))]
    rfl
  · have hc : ¬ bs.length ≤ Config.progMax := h
    refine .inr ⟨by omega, ?_⟩
    rw [State.load, if_neg hc]

/-- The three cases of a `LIFT` (R217, R218). -/
theorem lift_cases (id : Nat) (s : State) :
    (15 < id ∧ s.lift id = s) ∨
    (id ≤ 15 ∧ s.waiting = none ∧ s.lift id = s.setKey id false) ∨
    (∃ r, id ≤ 15 ∧ s.waiting = some r ∧
      s.lift id = { (s.setKey id false).setReg r (BitVec.ofNat 8 id) with waiting := none }) := by
  by_cases h : id ≤ 15
  · have hc : id < Config.numKeys := Nat.lt_succ_of_le h
    rw [State.lift, if_pos hc]
    cases hw : s.waiting with
    | none =>
      refine .inr (.inl ⟨h, rfl, ?_⟩)
      rw [State.resolveWait, show (s.setKey id false).waiting = none from hw]
    | some r =>
      refine .inr (.inr ⟨r, h, rfl, ?_⟩)
      rw [State.resolveWait, show (s.setKey id false).waiting = some r from hw]
  · have hc : ¬ id < Config.numKeys := fun e => h (Nat.le_of_lt_succ e)
    exact .inl ⟨by omega, if_neg hc⟩

/-- The placing of a word (log 8) makes the machine Running, with a `pc` that can be fetched from. -/
theorem madeRunning_running (s : State) : s.madeRunning.runState = .running := by
  unfold State.madeRunning
  split
  · assumption
  · rfl

theorem madeFetchable_fetchable (s : State) : s.madeFetchable.pc.toNat ≤ 4094 := by
  unfold State.madeFetchable
  split
  · next h => exact Nat.le_of_lt_succ (Nat.lt_of_succ_lt_succ (h : s.pc.toNat + 1 < 4096))
  · exact (by decide : (BitVec.ofNat 16 Config.progBase).toNat ≤ 4094)

theorem madeFetchable_runState (s : State) : s.madeFetchable.runState = s.runState := by
  unfold State.madeFetchable
  split <;> rfl

/-- A word placed at a `pc` that can be fetched from is the word fetched. -/
theorem fetchWord_placeWord (s : State) (w : Word) (h : s.pc.toNat ≤ 4094) : (s.placeWord w).fetchWord = some w := by
  have h0 : (s.placeWord w).mem.read s.pc.toNat = w.extractLsb' 8 8 :=
    Memory.read_writeBytes_add s.mem s.pc.toNat (k := 0) (bytesOfWord w) (by simp [bytesOfWord])
  have h1 : (s.placeWord w).mem.read (s.pc.toNat + 1) = w.extractLsb' 0 8 :=
    Memory.read_writeBytes_add s.mem s.pc.toNat (k := 1) (bytesOfWord w) (by simp [bytesOfWord])
  refine (fetchWord_eq (s.placeWord w) h).trans ?_
  show some (wordOfBytes ((s.placeWord w).mem.read s.pc.toNat) ((s.placeWord w).mem.read (s.pc.toNat + 1))) = _
  rw [h0, h1, wordOfBytes_bytes]

/-- What the host's numbering of a word decodes to is what the word decodes to. -/
theorem decodeTableWord_eq_some_iff (nbits w : Nat) (i : Instr) :
    decodeTableWord nbits w = some i ↔ decodeWord (tableWord nbits w) = .ok i := by
  simp only [decodeTableWord, bytesOfWord, decode, wordOfBytes_bytes]
  cases decodeWord (tableWord nbits w) <;> simp

end Sys2Proof.Machine
end

