-- ==== Sys2Proof/Laws/PerInstr.lean ====
section
/-! SUPPORT. Statements about every instruction as syntax, one lemma per constructor. -/

namespace Sys2Proof.Laws.RoundTrip

/-- The word of a well-formed instruction decodes to it, with every operand (`30_encoding.md` R70 to R80). -/
def Statement (i : Instr) : Prop := i.wf = true → decodeWord (encode i) = .ok i

theorem cls : Statement .cls := fun _ => rfl

theorem ret : Statement .ret := fun _ => rfl

/-- The two words taken by `CLS` and `RET` are those the well-formedness check refuses (R76, R83). -/
theorem sys (nnn : Addr) : Statement (.sys nnn) := by
  intro h
  have e1 : encA 0x0 nnn ≠ 0x00E0#16 := fun e => by
    have e' : nnn = 0x0E0 := (fieldNNN_encA 0x0 nnn).symm.trans (congrArg fieldNNN e)
    subst e'
    exact absurd h (by decide)
  have e2 : encA 0x0 nnn ≠ 0x00EE#16 := fun e => by
    have e' : nnn = 0x0EE := (fieldNNN_encA 0x0 nnn).symm.trans (congrArg fieldNNN e)
    subst e'
    exact absurd h (by decide)
  rw [encode, decodeWord_op0 (fieldOp_encA ..), decode0, if_neg e1, if_neg e2, fieldNNN_encA]

theorem jp (nnn : Addr) : Statement (.jp nnn) := fun _ =>
  (decodeWord_op1 (fieldOp_encA ..)).trans (by rw [fieldNNN_encA])

theorem call (nnn : Addr) : Statement (.call nnn) := fun _ =>
  (decodeWord_op2 (fieldOp_encA ..)).trans (by rw [fieldNNN_encA])

theorem seImm (x : RegIdx) (nn : Byte) : Statement (.seImm x nn) := fun _ =>
  (decodeWord_op3 (fieldOp_encXB ..)).trans (by rw [fieldX_encXB, fieldNN_encXB])

theorem sneImm (x : RegIdx) (nn : Byte) : Statement (.sneImm x nn) := fun _ =>
  (decodeWord_op4 (fieldOp_encXB ..)).trans (by rw [fieldX_encXB, fieldNN_encXB])

theorem seReg (x y : RegIdx) : Statement (.seReg x y) := fun _ =>
  (decodeWord_op5 (fieldOp_encXYN ..)).trans (by rw [fieldX_encXYN, fieldY_encXYN, fieldN_encXYN]; rfl)

theorem ldImm (x : RegIdx) (nn : Byte) : Statement (.ldImm x nn) := fun _ =>
  (decodeWord_op6 (fieldOp_encXB ..)).trans (by rw [fieldX_encXB, fieldNN_encXB])

theorem addImm (x : RegIdx) (nn : Byte) : Statement (.addImm x nn) := fun _ =>
  (decodeWord_op7 (fieldOp_encXB ..)).trans (by rw [fieldX_encXB, fieldNN_encXB])

theorem ldReg (x y : RegIdx) : Statement (.ldReg x y) := fun _ =>
  (decodeWord_op8 (fieldOp_encXYN ..)).trans (by rw [fieldX_encXYN, fieldY_encXYN, fieldN_encXYN]; rfl)

theorem orReg (x y : RegIdx) : Statement (.orReg x y) := fun _ =>
  (decodeWord_op8 (fieldOp_encXYN ..)).trans (by rw [fieldX_encXYN, fieldY_encXYN, fieldN_encXYN]; rfl)

theorem andReg (x y : RegIdx) : Statement (.andReg x y) := fun _ =>
  (decodeWord_op8 (fieldOp_encXYN ..)).trans (by rw [fieldX_encXYN, fieldY_encXYN, fieldN_encXYN]; rfl)

theorem xorReg (x y : RegIdx) : Statement (.xorReg x y) := fun _ =>
  (decodeWord_op8 (fieldOp_encXYN ..)).trans (by rw [fieldX_encXYN, fieldY_encXYN, fieldN_encXYN]; rfl)

theorem addReg (x y : RegIdx) : Statement (.addReg x y) := fun _ =>
  (decodeWord_op8 (fieldOp_encXYN ..)).trans (by rw [fieldX_encXYN, fieldY_encXYN, fieldN_encXYN]; rfl)

theorem sub (x y : RegIdx) : Statement (.sub x y) := fun _ =>
  (decodeWord_op8 (fieldOp_encXYN ..)).trans (by rw [fieldX_encXYN, fieldY_encXYN, fieldN_encXYN]; rfl)

theorem shr (x y : RegIdx) : Statement (.shr x y) := fun _ =>
  (decodeWord_op8 (fieldOp_encXYN ..)).trans (by rw [fieldX_encXYN, fieldY_encXYN, fieldN_encXYN]; rfl)

theorem subn (x y : RegIdx) : Statement (.subn x y) := fun _ =>
  (decodeWord_op8 (fieldOp_encXYN ..)).trans (by rw [fieldX_encXYN, fieldY_encXYN, fieldN_encXYN]; rfl)

theorem shl (x y : RegIdx) : Statement (.shl x y) := fun _ =>
  (decodeWord_op8 (fieldOp_encXYN ..)).trans (by rw [fieldX_encXYN, fieldY_encXYN, fieldN_encXYN]; rfl)

theorem sneReg (x y : RegIdx) : Statement (.sneReg x y) := fun _ =>
  (decodeWord_op9 (fieldOp_encXYN ..)).trans (by rw [fieldX_encXYN, fieldY_encXYN, fieldN_encXYN]; rfl)

theorem ldI (nnn : Addr) : Statement (.ldI nnn) := fun _ =>
  (decodeWord_opA (fieldOp_encA ..)).trans (by rw [fieldNNN_encA])

theorem jpV0 (nnn : Addr) : Statement (.jpV0 nnn) := fun _ =>
  (decodeWord_opB (fieldOp_encA ..)).trans (by rw [fieldNNN_encA])

theorem rnd (x : RegIdx) (nn : Byte) : Statement (.rnd x nn) := fun _ =>
  (decodeWord_opC (fieldOp_encXB ..)).trans (by rw [fieldX_encXB, fieldNN_encXB])

theorem drw (x y : RegIdx) (n : Nibble) : Statement (.drw x y n) := fun _ =>
  (decodeWord_opD (fieldOp_encXYN ..)).trans (by rw [fieldX_encXYN, fieldY_encXYN, fieldN_encXYN])

theorem skp (x : RegIdx) : Statement (.skp x) := fun _ =>
  (decodeWord_opE (fieldOp_encXB ..)).trans (by rw [fieldX_encXB, fieldNN_encXB]; rfl)

theorem sknp (x : RegIdx) : Statement (.sknp x) := fun _ =>
  (decodeWord_opE (fieldOp_encXB ..)).trans (by rw [fieldX_encXB, fieldNN_encXB]; rfl)

theorem ldVxDT (x : RegIdx) : Statement (.ldVxDT x) := fun _ =>
  (decodeWord_opF (fieldOp_encXB ..)).trans (by rw [fieldX_encXB, fieldNN_encXB]; rfl)

theorem ldVxK (x : RegIdx) : Statement (.ldVxK x) := fun _ =>
  (decodeWord_opF (fieldOp_encXB ..)).trans (by rw [fieldX_encXB, fieldNN_encXB]; rfl)

theorem ldDTVx (x : RegIdx) : Statement (.ldDTVx x) := fun _ =>
  (decodeWord_opF (fieldOp_encXB ..)).trans (by rw [fieldX_encXB, fieldNN_encXB]; rfl)

theorem ldSTVx (x : RegIdx) : Statement (.ldSTVx x) := fun _ =>
  (decodeWord_opF (fieldOp_encXB ..)).trans (by rw [fieldX_encXB, fieldNN_encXB]; rfl)

theorem addI (x : RegIdx) : Statement (.addI x) := fun _ =>
  (decodeWord_opF (fieldOp_encXB ..)).trans (by rw [fieldX_encXB, fieldNN_encXB]; rfl)

theorem ldF (x : RegIdx) : Statement (.ldF x) := fun _ =>
  (decodeWord_opF (fieldOp_encXB ..)).trans (by rw [fieldX_encXB, fieldNN_encXB]; rfl)

theorem ldB (x : RegIdx) : Statement (.ldB x) := fun _ =>
  (decodeWord_opF (fieldOp_encXB ..)).trans (by rw [fieldX_encXB, fieldNN_encXB]; rfl)

theorem storeRegs (x : RegIdx) : Statement (.storeRegs x) := fun _ =>
  (decodeWord_opF (fieldOp_encXB ..)).trans (by rw [fieldX_encXB, fieldNN_encXB]; rfl)

theorem loadRegs (x : RegIdx) : Statement (.loadRegs x) := fun _ =>
  (decodeWord_opF (fieldOp_encXB ..)).trans (by rw [fieldX_encXB, fieldNN_encXB]; rfl)

end Sys2Proof.Laws.RoundTrip
end

