-- ==== Sys2Proof/Tests/Slice0.lean ====
section
/-! SUPPORT. Tests. Expected results are the worked examples S1 to S10 and the vectors T1 to T133 of
`95_test_vectors.md`, or hand calculation from the rule cited; and, for every statement with hypotheses, a witness that
meets them, clause by clause at a boundary value. -/

namespace Sys2Proof.Tests

open Sys2Proof Sys2Proof.Machine

/-! ### Helpers -/

/-- Whether a result is a next state. -/
def isNext : Result → Bool
  | .next _ => true
  | .fault _ => false
  | .refused _ => false

/-- The state a result goes on in. -/
def nextState : Result → State
  | .next t => t
  | .fault _ => State.reset
  | .refused _ => State.reset

theorem eq_next {r : Result} (h : isNext r = true) : r = .next (nextState r) := by
  cases r <;> first | rfl | cases h

/-- Reset state with some registers set. -/
def withRegs (rs : List (RegIdx × Byte)) : State := rs.foldl (fun s r => s.setReg r.1 r.2) State.reset

/-- The word placed at `pc`, and one `STEP(0)`. -/
def run (w : Word) (s : State) : State := nextState (stepRnd 0 (s.placeWord w))

/-- One event. -/
def ev (e : Event) (s : State) : State := nextState (deliver e s)

/-- Some registers and `pc` of a state. -/
def view (s : State) (rs : List RegIdx) : List Byte × Word := (rs.map s.reg, s.pc)

/-- Reset state with `sp` entries on the stack, each the value 0xABC. -/
def withStack (sp : Fin 17) : State := { State.reset with stack := Vector.replicate 16 0xABC, sp := sp }

/-- Reset state with `I` set. -/
def withI (i : Word) : State := { State.reset with I := i }

/-! ### Well-formedness refuses the ill-formed (R76, R83) -/

theorem test_wf_refuses_sys_cls : Instr.wf (.sys 0x0E0) = false := by decide
theorem test_wf_refuses_sys_ret : Instr.wf (.sys 0x0EE) = false := by decide
theorem test_wf_accepts_sys_neighbours : Instr.wf (.sys 0x0E1) = true ∧ Instr.wf (.sys 0x0ED) = true ∧
    Instr.wf (.drw 15 15 15) = true ∧ Instr.wf (.loadRegs 15) = true := by decide

/-! ### Decoding: words written out, bits from high to low, from the patterns of R75 -/

theorem test_decode_0 : decodeWord 0b0000_0000_1110_0000 = .ok .cls ∧ decodeWord 0b0000_0000_1110_1110 = .ok .ret ∧
    decodeWord 0b0000_1010_1011_1100 = .ok (.sys 0xABC) := ⟨rfl, rfl, rfl⟩
theorem test_decode_addr : decodeWord 0b0001_0010_0011_0100 = .ok (.jp 0x234) ∧
    decodeWord 0b0010_1111_1111_1111 = .ok (.call 0xFFF) ∧ decodeWord 0b1010_0010_0011_0100 = .ok (.ldI 0x234) ∧
    decodeWord 0b1011_0010_0011_0100 = .ok (.jpV0 0x234) := ⟨rfl, rfl, rfl, rfl⟩
theorem test_decode_imm : decodeWord 0b0011_0001_0010_0011 = .ok (.seImm 1 0x23) ∧
    decodeWord 0b0100_0001_0010_0011 = .ok (.sneImm 1 0x23) ∧ decodeWord 0b0110_1010_0000_0010 = .ok (.ldImm 10 0x02) ∧
    decodeWord 0b0111_1111_1000_0001 = .ok (.addImm 15 0x81) ∧ decodeWord 0b1100_0111_0000_1111 = .ok (.rnd 7 0x0F) :=
  ⟨rfl, rfl, rfl, rfl, rfl⟩
theorem test_decode_skipReg : decodeWord 0b0101_0001_0010_0000 = .ok (.seReg 1 2) ∧
    decodeWord 0b1001_0001_0010_0000 = .ok (.sneReg 1 2) := ⟨rfl, rfl⟩
theorem test_decode_8 : decodeWord 0b1000_0001_0010_0000 = .ok (.ldReg 1 2) ∧
    decodeWord 0b1000_0001_0010_0001 = .ok (.orReg 1 2) ∧ decodeWord 0b1000_0001_0010_0010 = .ok (.andReg 1 2) ∧
    decodeWord 0b1000_0001_0010_0011 = .ok (.xorReg 1 2) ∧ decodeWord 0b1000_0000_0001_0100 = .ok (.addReg 0 1) ∧
    decodeWord 0b1000_0000_0001_0101 = .ok (.sub 0 1) ∧ decodeWord 0b1000_0001_0010_0110 = .ok (.shr 1 2) ∧
    decodeWord 0b1000_0001_0010_0111 = .ok (.subn 1 2) ∧ decodeWord 0b1000_0001_0010_1110 = .ok (.shl 1 2) :=
  ⟨rfl, rfl, rfl, rfl, rfl, rfl, rfl, rfl, rfl⟩
theorem test_decode_drw : decodeWord 0b1101_0001_0010_0011 = .ok (.drw 1 2 3) := rfl
theorem test_decode_keys : decodeWord 0b1110_0001_1001_1110 = .ok (.skp 1) ∧
    decodeWord 0b1110_0001_1010_0001 = .ok (.sknp 1) := ⟨rfl, rfl⟩
theorem test_decode_F : decodeWord 0b1111_0001_0000_0111 = .ok (.ldVxDT 1) ∧
    decodeWord 0b1111_0001_0000_1010 = .ok (.ldVxK 1) ∧ decodeWord 0b1111_0001_0001_0101 = .ok (.ldDTVx 1) ∧
    decodeWord 0b1111_0001_0001_1000 = .ok (.ldSTVx 1) ∧ decodeWord 0b1111_0001_0001_1110 = .ok (.addI 1) ∧
    decodeWord 0b1111_0001_0010_1001 = .ok (.ldF 1) ∧ decodeWord 0b1111_0001_0011_0011 = .ok (.ldB 1) ∧
    decodeWord 0b1111_0001_0101_0101 = .ok (.storeRegs 1) ∧ decodeWord 0b1111_0001_0110_0101 = .ok (.loadRegs 1) :=
  ⟨rfl, rfl, rfl, rfl, rfl, rfl, rfl, rfl, rfl⟩

/-- T10 to T14: the illegal words of each group. -/
theorem test_decode_illegal : decodeWord 0x5011 = .error .family5 ∧ decodeWord 0x9011 = .error .family9 ∧
    decodeWord 0x8008 = .error .family8 ∧ decodeWord 0x800D = .error .family8 ∧ decodeWord 0x800F = .error .family8 ∧
    decodeWord 0xE000 = .error .familyE ∧ decodeWord 0xE09F = .error .familyE ∧ decodeWord 0xE0A0 = .error .familyE ∧
    decodeWord 0xF000 = .error .familyF ∧ decodeWord 0xF075 = .error .familyF ∧ decodeWord 0xF085 = .error .familyF ∧
    decodeWord 0xFFFF = .error .familyF := ⟨rfl, rfl, rfl, rfl, rfl, rfl, rfl, rfl, rfl, rfl, rfl, rfl⟩
theorem test_decode_truncated : decode [0x6A] = .error .truncated ∧ decode [] = .error .truncated := ⟨rfl, rfl⟩

/-- S3's word as bytes, high-order byte first (R53); the rest of the bytes is left. -/
theorem test_decode_bytes : decode [0x6A, 0x02, 0x99] = .ok (.ldImm 10 0x02, [0x99]) := rfl
theorem test_encode_bytes : encodeBytes (.ldImm 10 0x02) = [0x6A, 0x02] := by decide
theorem test_decodeTableWord : decodeTableWord 16 0x6A02 = some (.ldImm 10 0x02) ∧ decodeTableWord 16 0xFFFF = none :=
  ⟨rfl, rfl⟩

/-! ### The step -/

/-- T1, T2: the last address a word can be fetched from is 0xFFE; the step after that faults unadvanced. -/
theorem test_fetch_last : view (run 0x6A02 (State.reset.jump 0xFFE)) [10] = ([0x02], 0x1000) := by decide
theorem test_fetch_past : (ev (.step 0) (State.reset.jump 0x1000)).fault = ⟨.outOfBoundsFetch, 0x1000, 0⟩ ∧
    (ev (.step 0) (State.reset.jump 0x1000)).pc = 0x1000 := by decide
/-- T7, T8: a step in the Halted or Waiting state is a no-op. -/
theorem test_step_idle : (run 0x6A02 { State.reset with halted := true }).reg 10 = 0 ∧
    (run 0x6A02 { State.reset with waiting := some 3 }).reg 10 = 0 := by decide
/-- T14: an illegal word. -/
theorem test_illegal : (run 0xFFFF State.reset).fault = ⟨.illegalInstruction, 0x200, 0xFFFF⟩ ∧
    (run 0xFFFF State.reset).pc = 0x202 ∧ (run 0xFFFF State.reset).halted = true := by decide
/-- `withFetchWord` from a Halted machine whose `pc` nothing can be fetched from. -/
theorem test_withFetchWord : view (nextState (step
    (State.withFetchWord { State.reset with halted := true, pc := 0xFFFF } 16 0x6A02))) [10] = ([0x02], 0x202) := by decide

/-! ### Control flow -/

/-- T20, T21. -/
theorem test_ret_empty : (run 0x00EE (withStack 0)).fault = ⟨.stackUnderflow, 0x200, 0x00EE⟩ ∧
    (run 0x00EE (withStack 0)).pc = 0x202 := by decide
theorem test_ret : (run 0x00EE (withStack 1)).pc = 0xABC ∧ (run 0x00EE (withStack 1)).sp = 0 := by decide
/-- T22, T23. -/
theorem test_sys : (run 0x0300 State.reset).stack[0] = 0x202 ∧ (run 0x0300 State.reset).sp = 1 ∧
    (run 0x0300 State.reset).pc = 0x300 := by decide
theorem test_sys_full : (run 0x0300 (withStack 16)).fault = ⟨.stackOverflow, 0x200, 0x0300⟩ ∧
    (run 0x0300 (withStack 16)).pc = 0x202 ∧ (run 0x0300 (withStack 16)).sp = 16 := by decide
/-- S8. -/
theorem test_call_16th : (run 0x2300 (withStack 15)).stack[15] = 0x202 ∧ (run 0x2300 (withStack 15)).sp = 16 ∧
    (run 0x2300 (withStack 15)).pc = 0x300 := by decide
theorem test_call_17th : (run 0x2300 (withStack 16)).fault = ⟨.stackOverflow, 0x200, 0x2300⟩ ∧
    (run 0x2300 (withStack 16)).stack[15] = 0xABC := by decide
/-- T4. -/
theorem test_jp : (run 0x1201 State.reset).pc = 0x201 := by decide
/-- T25: the self-jump repeats the state. -/
theorem test_jp_self : step (State.reset.placeWord 0x1200) = .next (State.reset.placeWord 0x1200) := rfl
/-- T26, T27. -/
theorem test_jpV0_top : (run 0xBFFF (withRegs [(0, 0xFF)])).pc = 0x10FE := by decide
theorem test_jpV0 : (run 0xB300 (withRegs [(0, 0x04)])).pc = 0x304 := by decide
/-- T28 to T31. -/
theorem test_seImm : (run 0x3A02 (withRegs [(10, 2)])).pc = 0x204 ∧ (run 0x3A02 (withRegs [(10, 3)])).pc = 0x202 := by
  decide
theorem test_sneImm : (run 0x4A02 (withRegs [(10, 2)])).pc = 0x202 ∧ (run 0x4A02 (withRegs [(10, 3)])).pc = 0x204 := by
  decide
/-- T32 to T35. -/
theorem test_seReg : (run 0x5120 (withRegs [(1, 9), (2, 9)])).pc = 0x204 ∧
    (run 0x5120 (withRegs [(1, 9), (2, 8)])).pc = 0x202 := by decide
theorem test_sneReg : (run 0x9120 (withRegs [(1, 9), (2, 9)])).pc = 0x202 ∧
    (run 0x9120 (withRegs [(1, 9), (2, 8)])).pc = 0x204 := by decide

/-! ### Load, arithmetic, logic, shift, random -/

/-- S3. -/
theorem test_ldImm : view (run 0x6A02 State.reset) [10, 2] = ([0x02, 0], 0x202) := by decide
/-- T40, T41. -/
theorem test_addImm_wraps : view (run 0x7101 (withRegs [(1, 0xFF), (15, 1)])) [1, 15] = ([0x00, 1], 0x202) := by decide
theorem test_addImm_VF : view (run 0x7F01 (withRegs [(15, 0xFF)])) [15] = ([0x00], 0x202) := by decide
/-- T42 to T45. -/
theorem test_ldReg : view (run 0x8120 (withRegs [(2, 0x3C)])) [1, 2] = ([0x3C, 0x3C], 0x202) := by decide
theorem test_orReg : view (run 0x8121 (withRegs [(1, 0xF0), (2, 0x0F), (15, 1)])) [1, 15] = ([0xFF, 1], 0x202) := by
  decide
theorem test_andReg : view (run 0x8122 (withRegs [(1, 0xF0), (2, 0x3C)])) [1, 2] = ([0x30, 0x3C], 0x202) := by decide
theorem test_xorReg : view (run 0x8123 (withRegs [(1, 0xF0), (2, 0x3C)])) [1, 2] = ([0xCC, 0x3C], 0x202) := by decide
/-- T48, T50. -/
theorem test_addReg_255 : view (run 0x8014 (withRegs [(0, 0xFF), (1, 0x00)])) [0, 15] = ([0xFF, 0], 0x202) := by decide
theorem test_addReg_VF : view (run 0x8F14 (withRegs [(15, 0x01), (1, 0xFF)])) [15, 1] = ([0x00, 0xFF], 0x202) := by
  decide
/-- S5, T54. -/
theorem test_sub_wraps : view (run 0x8015 (withRegs [(0, 0x01), (1, 0x02)])) [0, 1, 15] = ([0xFF, 0x02, 0], 0x202) := by
  decide
theorem test_sub_VF : view (run 0x8F15 (withRegs [(15, 0x05), (1, 0x03)])) [15] = ([0x02], 0x202) := by decide
/-- T57, T59. -/
theorem test_shr_ignores_Y : view (run 0x8216 (withRegs [(2, 0x04), (1, 0xFF)])) [2, 1, 15] = ([0x02, 0xFF, 0], 0x202) :=
  by decide
theorem test_shr_VF : view (run 0x8F06 (withRegs [(15, 0x03)])) [15] = ([0x01], 0x202) := by decide
/-- T61, T62. -/
theorem test_subn_wraps : view (run 0x8017 (withRegs [(0, 0x05), (1, 0x03)])) [0, 15] = ([0xFE, 0], 0x202) := by decide
theorem test_subn : view (run 0x8017 (withRegs [(0, 0x03), (1, 0x05)])) [0, 15] = ([0x02, 1], 0x202) := by decide
/-- T63, T65. -/
theorem test_shl : view (run 0x820E (withRegs [(2, 0x80)])) [2, 15] = ([0x00, 1], 0x202) := by decide
theorem test_shl_VF : view (run 0x8F0E (withRegs [(15, 0x81)])) [15] = ([0x02], 0x202) := by decide
/-- T68, T66. -/
theorem test_rnd : view (nextState (stepRnd 0xB7 (State.reset.placeWord 0xC10F))) [1] = ([0x07], 0x202) := by decide
theorem test_rnd_zero : view (nextState (stepRnd 0xFF (State.reset.placeWord 0xC100))) [1] = ([0x00], 0x202) := by decide

/-! ### Index register and memory -/

/-- T70. -/
theorem test_ldI : (run 0xAFFF State.reset).I = 0x0FFF := by decide
/-- T71, T72. -/
theorem test_addI_no_flag : (run 0xF11E { withRegs [(1, 1)] with I := 0x0FFF }).I = 0x1000 ∧
    (run 0xF11E { withRegs [(1, 1)] with I := 0x0FFF }).reg 15 = 0 := by decide
theorem test_addI_wraps : (run 0xF11E { withRegs [(1, 1)] with I := 0xFFFF }).I = 0x0000 := by decide
/-- T74. -/
theorem test_ldF : (run 0xF129 (withRegs [(1, 0xFF)])).I = 0x04FB := by decide
/-- T75, T76. -/
theorem test_ldB_top : (run 0xF133 { withRegs [(1, 0xFF)] with I := 4093 }).mem.readBytes 4093 3 = [2, 5, 5] := by decide
theorem test_ldB_past : (run 0xF133 { withRegs [(1, 0xFF)] with I := 4094 }).fault = ⟨.indexOutOfBounds, 0x200, 0xF133⟩ ∧
    (run 0xF133 { withRegs [(1, 0xFF)] with I := 4094 }).mem.read 4094 = 0 := by decide
/-- T79, T80. -/
theorem test_storeRegs_top : (run 0xFF55 { withRegs [(0, 1), (15, 0xEE)] with I := 4080 }).mem.read 4080 = 0x01 ∧
    (run 0xFF55 { withRegs [(0, 1), (15, 0xEE)] with I := 4080 }).mem.read 4095 = 0xEE ∧
    (run 0xFF55 { withRegs [(0, 1), (15, 0xEE)] with I := 4080 }).I = 0x1000 := by decide
theorem test_storeRegs_past : (run 0xFF55 { withRegs [(0, 1)] with I := 4081 }).fault = ⟨.indexOutOfBounds, 0x200, 0xFF55⟩ ∧
    (run 0xFF55 { withRegs [(0, 1)] with I := 4081 }).I = 4081 := by decide
/-- T85, T84. -/
theorem test_loadRegs : view (run 0xF065 (withI 0x200)) [0, 1] = ([0xF0, 0], 0x202) ∧
    (run 0xF065 (withI 0x200)).I = 0x201 := by decide
theorem test_loadRegs_past : (run 0xF065 (withI 0xFFFF)).fault = ⟨.indexOutOfBounds, 0x200, 0xF065⟩ := by decide

/-! ### Display -/

/-- Reset state with `I` = 0x300, the byte `b` there, and pixel (0, 0) set to `p`. -/
def withSprite (b : Byte) (p : Bool) : State :=
  { State.reset with I := 0x300, mem := [(0x300, b)], fb := State.reset.fb.xorPixel 0 0 p }

/-- T90. -/
theorem test_cls : (run 0x00E0 { withSprite 0 true with x := (withRegs [(15, 1)]).x }).fb = Framebuffer.blank ∧
    (run 0x00E0 { withSprite 0 true with x := (withRegs [(15, 1)]).x }).reg 15 = 1 := by decide
/-- T95, T96: collision, and no collision of a 0 bit; T94's wrap is in `test_drw_wraps`. -/
theorem test_drw_collides : (run 0xD011 (withSprite 0x80 true)).fb.pixel 0 0 = false ∧
    (run 0xD011 (withSprite 0x80 true)).reg 15 = 1 ∧ (run 0xD011 (withSprite 0x40 true)).fb.pixel 0 0 = true ∧
    (run 0xD011 (withSprite 0x40 true)).fb.pixel 1 0 = true ∧ (run 0xD011 (withSprite 0x40 true)).reg 15 = 0 := by decide
theorem test_drw_wraps : (run 0xD011 { withSprite 0xFF false with x := (withRegs [(0, 70), (1, 40)]).x }).fb
    = Framebuffer.blank.set 8 0x3FC0 := by decide

/-! ### Timers and keys -/

/-- T107, T105, T106. -/
theorem test_ldVxDT : view (run 0xF107 { State.reset with dt := 0x2A }) [1] = ([0x2A], 0x202) := by decide
theorem test_ldDTVx : (run 0xF115 (withRegs [(1, 0x3C)])).dt = 0x3C := by decide
theorem test_ldSTVx : (run 0xF118 (withRegs [(1, 0x3C)])).st = 0x3C ∧ (run 0xF118 (withRegs [(1, 0x3C)])).tone = true ∧
    (run 0xF118 (withRegs [(1, 0x3C)])).dt = 0 := by decide
/-- T113 to T116. -/
theorem test_skp : (run 0xE09E ((withRegs [(0, 7)]).press 7)).pc = 0x204 ∧
    (run 0xE09E ((withRegs [(0, 0x17)]).press 7)).pc = 0x202 := by decide
theorem test_sknp : (run 0xE0A1 ((withRegs [(0, 7)]).press 7)).pc = 0x202 ∧
    (run 0xE0A1 (withRegs [(0, 0x10)])).pc = 0x204 := by decide
/-- T117, T122. -/
theorem test_ldVxK : (run 0xF30A (withRegs [(3, 9)])).waiting = some 3 ∧ (run 0xF30A (withRegs [(3, 9)])).reg 3 = 9 := by
  decide
theorem test_ldVxK_lift : (ev (.lift 9) (run 0xFF0A State.reset)).reg 15 = 9 ∧
    (ev (.lift 9) (run 0xFF0A State.reset)).waiting = none := by decide

/-! ### Events -/

/-- T100 to T102. -/
theorem test_tick : (ev .tick { State.reset with dt := 1 }).dt = 0 ∧ (ev .tick State.reset).dt = 0 ∧
    (ev .tick { State.reset with st := 2 }).st = 1 ∧ (ev .tick { State.reset with st := 2 }).tone = true := by decide
/-- T110, T111. -/
theorem test_press : (ev (.press 7) State.reset).key[7] = true ∧ (ev (.press 255) State.reset).key = State.reset.key := by
  decide
/-- T119, T120: a release of an unrecognized key ends no wait; a release of a key never pressed does. -/
theorem test_lift : (ev (.lift 16) { State.reset with waiting := some 3 }).waiting = some 3 ∧
    (ev (.lift 3) { State.reset with waiting := some 3 }).reg 3 = 3 := by decide
/-- S1, T131: a load sets `pc` and leaves `halted`. -/
theorem test_load : (ev (.load [0x6A, 0x02]) (State.reset.jump 0x345)).mem = [(0x200, 0x6A), (0x201, 0x02)] ∧
    (ev (.load [0x6A, 0x02]) (State.reset.jump 0x345)).pc = 0x200 ∧
    (ev (.load [0x12]) { State.reset with halted := true }).halted = true := by decide
/-- T132: leftovers stay. -/
theorem test_load_keeps : (ev (.load [0xAA]) { State.reset with mem := [(0x200, 1), (0x201, 2)] }).mem
    = [(0x200, 0xAA), (0x201, 2)] := by decide
/-- T130. -/
theorem test_reset : (ev .reset { State.reset with halted := true, mem := [(0x200, 0x12)] }).mem = [] ∧
    (ev .reset { State.reset with halted := true, fault := ⟨.stackOverflow, 0, 0⟩ }).fault = FaultRecord.empty := by decide

/-! ### Memory keeps its canonical form -/

theorem test_memory_wf_reset : State.reset.mem.wf := by decide
theorem test_memory_zero_removes : (Memory.write [(5, 1), (9, 2)] 5 0) = [(9, 2)] ∧
    Memory.write [(5, 1)] 3 7 = [(3, 7), (5, 1)] := by decide

/-! ### Witnesses: for each statement with hypotheses, inputs that meet them, each clause at a boundary value

A statement about encodings has the decode tests above for its witness as well. -/

theorem witness_DecodeEncodeRoundTrip : Instr.wf (.sys 0x0E1) = true ∧ Instr.wf (.drw 15 15 15) = true := by decide
theorem witness_EncodeDecodeRoundTrip : decodeWord 0xDFFF = .ok (.drw 15 15 15) ∧ decodeWord 0x0FFF = .ok (.sys 0xFFF) :=
  ⟨rfl, rfl⟩

/-- One word under each row's mask, its fields all ones (for family 0, also the neighbour of the fixed words). -/
theorem witness_OpcodeMapDecodes_0 : (0x00E0#16 &&& 0xFFFF = 0x00E0 ∧ 0x00EE#16 &&& 0xFFFF = 0x00EE) ∧
    0x00E1#16 &&& 0xF000 = 0x0000 ∧ 0x00E1#16 ≠ 0x00E0#16 ∧ 0x00E1#16 ≠ 0x00EE#16 := by decide
theorem witness_OpcodeMapDecodes_A_XB : 0x1FFF#16 &&& 0xF000 = 0x1000 ∧ 0x2FFF#16 &&& 0xF000 = 0x2000 ∧
    0xAFFF#16 &&& 0xF000 = 0xA000 ∧ 0xBFFF#16 &&& 0xF000 = 0xB000 ∧ 0x3FFF#16 &&& 0xF000 = 0x3000 ∧
    0x4FFF#16 &&& 0xF000 = 0x4000 ∧ 0x6FFF#16 &&& 0xF000 = 0x6000 ∧ 0x7FFF#16 &&& 0xF000 = 0x7000 ∧
    0xCFFF#16 &&& 0xF000 = 0xC000 ∧ 0xDFFF#16 &&& 0xF000 = 0xD000 := by decide
theorem witness_OpcodeMapDecodes_XY : 0x5FF0#16 &&& 0xF00F = 0x5000 ∧ 0x9FF0#16 &&& 0xF00F = 0x9000 ∧
    0x8FF0#16 &&& 0xF00F = 0x8000 ∧ 0x8FF1#16 &&& 0xF00F = 0x8001 ∧ 0x8FF2#16 &&& 0xF00F = 0x8002 ∧
    0x8FF3#16 &&& 0xF00F = 0x8003 ∧ 0x8FF4#16 &&& 0xF00F = 0x8004 ∧ 0x8FF5#16 &&& 0xF00F = 0x8005 ∧
    0x8FF6#16 &&& 0xF00F = 0x8006 ∧ 0x8FF7#16 &&& 0xF00F = 0x8007 ∧ 0x8FFE#16 &&& 0xF00F = 0x800E := by decide
theorem witness_OpcodeMapDecodes_XF : 0xEF9E#16 &&& 0xF0FF = 0xE09E ∧ 0xEFA1#16 &&& 0xF0FF = 0xE0A1 ∧
    0xFF07#16 &&& 0xF0FF = 0xF007 ∧ 0xFF0A#16 &&& 0xF0FF = 0xF00A ∧ 0xFF15#16 &&& 0xF0FF = 0xF015 ∧
    0xFF18#16 &&& 0xF0FF = 0xF018 ∧ 0xFF1E#16 &&& 0xF0FF = 0xF01E ∧ 0xFF29#16 &&& 0xF0FF = 0xF029 ∧
    0xFF33#16 &&& 0xF0FF = 0xF033 ∧ 0xFF55#16 &&& 0xF0FF = 0xF055 ∧ 0xFF65#16 &&& 0xF0FF = 0xF065 := by decide

/-- `pc` = 4094 and the word 0x6A02 there. -/
def atTop : State := (State.reset.jump 4094).placeWord 0x6A02

theorem witness_StepRunsDecodedInstruction : atTop.runState = .running ∧ atTop.pc.toNat ≤ 4094 ∧
    decodeWord (BitVec.ofNat 16 ((atTop.mem.read atTop.pc.toNat).toNat * 256 +
      (atTop.mem.read (atTop.pc.toNat + 1)).toNat)) = .ok (.ldImm 10 0x02) := ⟨by decide, by decide, rfl⟩
theorem witness_PlacedWordRunsNext : decodeTableWord 16 0x6A02 = some (.ldImm 10 0x02) ∧ atTop.runState = .running ∧
    atTop.pc.toNat ≤ 4094 := by decide
/-- Every clause: Halted, Waiting, and Running with a word that decodes, with none that can be fetched, with an illegal one. -/
theorem witness_StepMapsStateToState : { State.reset with halted := true }.runState ≠ .running ∧
    { State.reset with waiting := some 0 }.runState ≠ .running ∧
    (atTop.runState = .running ∧ atTop.fetchWord = some 0x6A02 ∧ decodeWord 0x6A02 = .ok (.ldImm 10 0x02)) ∧
    ((State.reset.jump 4095).runState = .running ∧ (State.reset.jump 4095).fetchWord = none) ∧
    ((State.reset.placeWord 0x5011).runState = .running ∧ (State.reset.placeWord 0x5011).fetchWord = some 0x5011 ∧
      decodeWord 0x5011 = .error .family5) :=
  ⟨by decide, by decide, ⟨by decide, by decide, rfl⟩, by decide, by decide, by decide, rfl⟩
theorem witness_FetchOutOfBounds : (State.reset.jump 4095).runState = .running ∧ 4095 ≤ (State.reset.jump 4095).pc.toNat ∧
    ∃ t, step ((withStack 0).jump 4094 |>.placeWord 0x00EE) = .next t ∧ t.halted = true :=
  ⟨by decide, by decide, nextState (step ((withStack 0).jump 4094 |>.placeWord 0x00EE)), eq_next (by decide), by decide⟩
theorem witness_IllegalWordHalts : (State.reset.placeWord 0xFFFF).runState = .running ∧
    (State.reset.placeWord 0xFFFF).fetchWord = some 0xFFFF ∧ decodeWord 0xFFFF = .error .familyF :=
  ⟨by decide, by decide, rfl⟩

/-- A Running state whose step raises each of the five faults. -/
def faulting : FaultKind → State
  | .none => State.reset
  | .outOfBoundsFetch => State.reset.jump 4095
  | .stackOverflow => (withStack 16).placeWord 0x2300
  | .stackUnderflow => (withStack 0).placeWord 0x00EE
  | .illegalInstruction => State.reset.placeWord 0x5011
  | .indexOutOfBounds => (withI 4094).placeWord 0xF033

theorem witness_FatalFaultsArePrecise (k : FaultKind) (hk : k ≠ .none) : (faulting k).runState = .running ∧
    ∃ t, step (faulting k) = .next t ∧ t.halted = true ∧ t.fault.kind = k := by
  cases k <;> first | exact absurd rfl hk | exact ⟨by decide, nextState (step _), eq_next (by decide), by decide, by decide⟩
/-- Each of the five faults at the boundary of its clause; `atTop`'s step raises none. -/
theorem witness_FaultsArisenExactlyWhenListed : (∀ k, k ≠ .none → (faulting k).runState = .running ∧
      ∃ t, step (faulting k) = .next t ∧ t.halted = true ∧ t.fault.kind = k) ∧
    atTop.runState = .running ∧ ∃ t, step atTop = .next t ∧ t.halted = false :=
  ⟨witness_FatalFaultsArePrecise, by decide, nextState (step atTop), eq_next (by decide), by decide⟩
theorem witness_RandomInputMattersToRndOnly : ∀ w x nn, atTop.fetchWord = some w → decodeWord w ≠ .ok (.rnd x nn) := by
  intro w x nn h
  obtain rfl : (0x6A02 : Word) = w := Option.some.inj ((by decide : atTop.fetchWord = some 0x6A02).symm.trans h)
  nofun

/-- `CXNN` with X and NN all ones. -/
theorem witness_RandomInputMattersToRndOnly_rnd : (State.reset.placeWord 0xCFFF).runState = .running ∧
    (State.reset.placeWord 0xCFFF).fetchWord = some 0xCFFF ∧ 0xCFFF#16 &&& 0xF000 = 0xC000 := by decide

/-- A state no field of which is at its reset value where the invariants speak of it. -/
def busy : State :=
  { withStack 16 with mem := [(0x200, 0x22), (0x201, 0xF0)], x := (withRegs [(3, 7), (15, 1)]).x, I := 4095, waiting := none }

theorem busy_inv : busy.Inv where
  memory := by decide
  halted_iff_fault := by decide
  empty_record := by decide
  not_both := by decide
  pc_bound := by decide
  stack_bound := by decide

theorem witness_StepKeepsInvariant : busy.Inv ∧ ∃ t, step busy = .next t ∧ t.halted = true :=
  ⟨busy_inv, nextState (step busy), eq_next (by decide), by decide⟩
theorem witness_EventsKeepInvariant : busy.Inv ∧ ∃ t, deliver (.load [1]) busy = .next t ∧ t.mem ≠ busy.mem :=
  ⟨busy_inv, nextState (deliver (.load [1]) busy), eq_next (by decide), by decide⟩

/-- `busy` after its step: Halted by the seventeenth nested call. -/
def overflowed : State := nextState (step busy)

theorem witness_EventsKeepFaultExplained : overflowed.Inv ∧ overflowed.FaultExplained ∧ overflowed.halted = true ∧
    ∃ t, deliver .tick overflowed = .next t := by
  refine ⟨⟨by decide, by decide, by decide, by decide, by decide, by decide⟩, ?_, by decide, _, rfl⟩
  exact ⟨by decide, by decide, 0x2F0, .inl rfl⟩

/-! #### Reset, load and the run states -/

theorem witness_ResetValues : ∃ t, deliver .reset busy = .next t := ⟨_, rfl⟩
theorem witness_OnlyResetLeavesHalted :
    (overflowed.halted = true ∧ Event.load [1] ≠ .reset ∧ isNext (deliver (.load [1]) overflowed) = true) ∧
    (∃ t, { busy with waiting := some 3 }.waiting = some 3 ∧
      deliver (.lift 15) { busy with waiting := some 3 } = .next t ∧ t.waiting ≠ some 3) :=
  ⟨⟨by decide, by decide, by decide⟩, nextState (deliver (.lift 15) { busy with waiting := some 3 }), rfl,
    eq_next (by decide), by decide⟩
theorem witness_RunStateTransitions : overflowed.runState = .halted ∧ { busy with waiting := some 3 }.runState = .waiting ∧
    busy.runState = .running ∧ (State.reset.placeWord 0xF30A).runState = .running ∧
    (State.reset.placeWord 0xF30A).fetchWord = some 0xF30A ∧ decodeWord 0xF30A = .ok (.ldVxK 3) ∧
    (∀ id, id ≤ 15 → Event.lift 16 ≠ .lift id) ∧ (∀ rnd, Event.tick ≠ .step rnd) :=
  ⟨by decide, by decide, by decide, by decide, by decide, rfl, fun id h e => by cases e; omega, nofun⟩
theorem witness_RunStateTransitions_noWait : ∀ w x, atTop.fetchWord = some w → decodeWord w ≠ .ok (.ldVxK x) := by
  intro w x h
  obtain rfl : (0x6A02 : Word) = w := Option.some.inj ((by decide : atTop.fetchWord = some 0x6A02).symm.trans h)
  nofun
theorem witness_LoadPlacesImage : (List.replicate 3584 (0xAB : Byte)).length ≤ 3584 := by
  rw [List.length_replicate]
theorem witness_OversizeLoadChangesNothing : 4096 - 0x200 < (List.replicate 3585 (0xAB : Byte)).length := by
  rw [List.length_replicate]; decide

/-! #### Timers, keys -/

theorem witness_PressSetsLatch : (15 : Fin 16).val = 15 := rfl
theorem witness_LiftResolvesWait : 15 < 16 ∧ 15 ≤ 15 ∧ { busy with waiting := some 3 }.waiting = some 3 := by decide
theorem witness_OnlyFirstReleaseResolves :
    (∃ t, { busy with waiting := some 3 }.waiting = some 3 ∧ 15 ≤ 15 ∧
      deliver (.lift 15) { busy with waiting := some 3 } = .next t ∧
      ∀ e ∈ [Event.press 5, .lift 5], ∃ k, e = .lift k ∨ e = .press k) ∧
    (busy.waiting = none ∧ ∃ t, deliver (.lift 15) busy = .next t) ∧
    ∃ t, { busy with waiting := some 3 }.waiting = some 3 ∧ deliver (.press 15) { busy with waiting := some 3 } = .next t :=
  ⟨⟨_, rfl, by decide, rfl, by simp⟩, ⟨rfl, _, rfl⟩, _, rfl, rfl⟩
theorem witness_KeyWait : busy.halted = false ∧ 15 ≤ 15 ∧
    ∀ e ∈ [Event.tick, .press 3, .step 0xFF], e = .tick ∨ (∃ k, e = .press k) ∨ (∃ rnd, e = .step rnd) :=
  ⟨by decide, by decide, by simp⟩
theorem witness_KeySkips : ((withRegs [(3, 0)]).reg 3).toNat = (0 : Fin 16).val ∧
    ((withRegs [(3, 15)]).reg 3).toNat = (15 : Fin 16).val ∧ 15 < ((withRegs [(3, 16)]).reg 3).toNat := by decide

/-- `dt` does not increase under a tick, nor under a step of a word that is not `FX15`. -/
theorem witness_TimerAccess : (∃ t, deliver .tick { busy with dt := 1 } = .next t ∧ t.dt = 0) ∧
    (∃ t, deliver (.step 0) atTop = .next t) ∧
    ∀ rnd w y, Event.step 0 = .step rnd → atTop.fetchWord = some w → decodeWord w ≠ .ok (.ldDTVx y) := by
  refine ⟨⟨_, rfl, by decide⟩, ⟨nextState (deliver (.step 0) atTop), eq_next (by decide)⟩, ?_⟩
  intro rnd w y _ h
  obtain rfl : (0x6A02 : Word) = w := Option.some.inj ((by decide : atTop.fetchWord = some 0x6A02).symm.trans h)
  nofun

/-! #### Control flow -/

theorem witness_ReturnPopsStack : (withStack 0).sp.val = 0 ∧ (withStack 1).sp.val = (0 : Fin 16).val + 1 ∧
    (withStack 16).sp.val = (15 : Fin 16).val + 1 := by decide
theorem witness_CallPushesReturnAddress : (withStack 16).sp.val = 16 ∧ (withStack 0).sp.val = (0 : Fin 16).val ∧
    (withStack 15).sp.val = (15 : Fin 16).val := by decide
theorem witness_SysIsACall : (withStack 16).sp.val = 16 ∧ (withStack 15).sp.val = (15 : Fin 16).val ∧
    0x0FFF#16 &&& 0xF000 = 0x0000 ∧ 0x0FFF#16 ≠ 0x00E0#16 ∧ 0x0FFF#16 ≠ 0x00EE#16 := by decide
theorem witness_CallThenReturnComesBack : ∃ t, (withStack 15).sp.val < 16 ∧ exec (.call 0x300) (withStack 15) = .next t ∧
    { t with dt := 9 }.sp = t.sp ∧ ∀ k : Fin 16, k.val < t.sp.val → { t with dt := 9 }.stack[k] = t.stack[k] :=
  ⟨nextState (exec (.call 0x300) (withStack 15)), by decide, eq_next (by decide), rfl, fun _ _ => rfl⟩

/-! #### Arithmetic, memory, display -/

theorem witness_flagRegisterNotDestination : (14 : RegIdx) ≠ 15 := by decide
theorem witness_RandomByteIsMasked : ∀ b, (0x05 : Byte).getLsbD b = true → (0x0F : Byte).getLsbD b = true := by
  intro b h
  have hb : b < 8 := BitVec.lt_of_getLsbD h
  revert h
  revert b
  decide
theorem witness_StoreDecimalDigits : 4096 ≤ (withI 4094).I.toNat + 2 ∧ (withI 4093).I.toNat + 2 < 4096 := by decide
theorem witness_StoreRegisters : 4096 ≤ (withI 4081).I.toNat + (15 : RegIdx).val ∧
    (withI 4080).I.toNat + (15 : RegIdx).val < 4096 ∧ 4096 ≤ (withI 4096).I.toNat + (0 : RegIdx).val ∧
    (withI 4095).I.toNat + (0 : RegIdx).val < 4096 := by decide
theorem witness_LoadRegisters : (4096 ≤ (withI 0xFFFF).I.toNat + (0 : RegIdx).val ∧
    (withI 4080).I.toNat + (15 : RegIdx).val < 4096) ∧
    ∃ t, exec (.storeRegs 15) (withI 4080) = .next t ∧ { State.reset with mem := t.mem, I := 4080 }.mem = t.mem ∧
      { State.reset with mem := t.mem, I := 4080 }.I = (withI 4080).I :=
  ⟨by decide, nextState (exec (.storeRegs 15) (withI 4080)), eq_next (by decide), rfl, rfl⟩
theorem witness_FetchSeesStore : ∃ t, (withI 4080).I.toNat + (15 : RegIdx).val < 4096 ∧
    exec (.storeRegs 15) (withI 4080) = .next t ∧ (15 : RegIdx) ≤ 15 ∧ (15 : RegIdx).val = (14 : RegIdx).val + 1 :=
  ⟨nextState (exec (.storeRegs 15) (withI 4080)), by decide, eq_next (by decide), by decide, by decide⟩
theorem witness_DrawXorsSprite : (1 ≤ (2 : Nibble).toNat ∧ 4096 ≤ (withI 4095).I.toNat + (2 : Nibble).toNat - 1) ∧
    (withI 4095).I.toNat + (1 : Nibble).toNat - 1 < 4096 ∧ (0 : Nibble).toNat = 0 := by decide
theorem witness_DrawTwiceRestores : ∃ t, (0 : RegIdx) ≠ 15 ∧ (1 : RegIdx) ≠ 15 ∧
    ((1 : Nibble).toNat = 0 ∨ (withSprite 0xC0 true).I.toNat + (1 : Nibble).toNat - 1 < 4096) ∧
    exec (.drw 0 1 1) (withSprite 0xC0 true) = .next t ∧ t.fb ≠ (withSprite 0xC0 true).fb :=
  ⟨nextState (exec (.drw 0 1 1) (withSprite 0xC0 true)), by decide, by decide, by decide, eq_next (by decide), by decide⟩

/-! #### Whole-machine rules: an instruction that changes each field -/

/-- The state after an instruction's execute stage. -/
def after (i : Instr) (s : State) : State := nextState (exec i s)

theorem witness_OnlyTheListedWriters_next : isNext (exec (.ldB 3) (withRegs [(3, 1)])) = true ∧
    isNext (exec (.call 1) State.reset) = true ∧ isNext (exec .cls (withSprite 0 true)) = true ∧
    [Instr.ldI 1, .jp 1, .ret, .ldDTVx 3, .ldSTVx 3, .ldVxK 3, .call 1, .rnd 3 1].all (fun i => isNext (exec i busy)) = true := by
  decide
theorem witness_OnlyTheListedWriters : (after (.ldB 3) (withRegs [(3, 1)])).mem ≠ State.reset.mem ∧
    (after (.ldI 1) busy).I ≠ busy.I ∧ (after (.jp 1) busy).pc ≠ busy.pc ∧
    (after (.call 1) State.reset).stack ≠ State.reset.stack ∧ (after .ret busy).sp ≠ busy.sp ∧
    (after (.ldDTVx 3) busy).dt ≠ busy.dt ∧ (after (.ldSTVx 3) busy).st ≠ busy.st ∧
    (after .cls (withSprite 0 true)).fb ≠ (withSprite 0 true).fb ∧ (after (.ldVxK 3) busy).waiting ≠ busy.waiting ∧
    (after (.rnd 3 1) busy).draws ≠ busy.draws ∧ (after (.call 1) busy).halted ≠ busy.halted ∧
    (after (.call 1) busy).fault ≠ busy.fault ∧ overflowed.halted = true := by decide
theorem witness_FlagRegisterWriters : isNext (exec (.sub 0 1) State.reset) = true ∧
    (after (.sub 0 1) State.reset).reg 15 ≠ State.reset.reg 15 := by decide
theorem witness_RegistersOtherThanDestinationsSurvive : (14 : RegIdx) ≠ 15 ∧
    isNext (exec (.ldImm 14 1) State.reset) = true ∧
    (after (.ldImm 14 1) State.reset).reg 14 ≠ State.reset.reg 14 := by decide

/-! #### The end of a run (R248) -/

/-- The self-jump `1200` at 0x200. -/
def selfJump : State := State.reset.placeWord 0x1200

theorem witness_EndOfRun : (selfJump.verdict 0x200 = .ended ∧ selfJump.verdict 0x202 = .unfinished) ∧
    (overflowed.verdict 0x200 = .failed ∧ overflowed.halted = true) ∧
    { selfJump with waiting := some 3 }.verdict 0x200 = .unfinished ∧ { selfJump with halted := true }.verdict 0x200 = .failed ∧
    ((∃ t, deliver .tick selfJump = .next t) ∧ Event.tick ≠ .reset ∧ ∀ bytes, Event.tick ≠ .load bytes) ∧
    ∃ t, deliver (.load [1]) overflowed = .next t ∧ Event.load [1] ≠ .reset :=
  ⟨by decide, by decide, by decide, by decide, ⟨⟨_, rfl⟩, nofun, nofun⟩,
    nextState (deliver (.load [1]) overflowed), eq_next (by decide), by decide⟩
/-- `6A02` then `1202` ends at 0x202 after one step; an illegal word fails. -/
theorem witness_RunVerdictIsArrival :
    runVerdict 0x202 [.load [0x6A, 0x02, 0x12, 0x02], .tick, .step 0, .reset] State.reset = .ended ∧
    runVerdict 0x202 [.load [0xFF, 0xFF], .step 0, .step 0] State.reset = .failed ∧
    runVerdict 0x202 [.step 0] State.reset = .unfinished ∧
    ∀ e ∈ [Event.step 0, .tick, .press 3, .lift 3], e ≠ .reset ∧ ∀ bytes, e ≠ .load bytes :=
  ⟨by decide, by decide, by decide, by simp⟩

end Sys2Proof.Tests
end

/-! # The step cycle (`40_step_cycle.md`, sections 1 and 2)

A step over any execute stage is taken apart by `cycle_cases`; what is missing below it is that no execute stage stops the
model, and that none raises the fault that belongs to the fetch. -/

namespace Sys2Proof.Machine

/-! ### A step answers a next state -/

theorem exec_next (i : Instr) (s : State) : ∃ t, exec i s = .next t := by
  rcases exec_cases i s with ⟨_, _, h⟩ | ⟨_, t, h, _⟩
  · exact ⟨_, h⟩
  · exact ⟨t, h⟩

theorem withRnd_exec_next (rnd : Byte) (i : Instr) (s : State) : ∃ t, withRnd rnd exec i s = .next t := by
  rcases withRnd_cases rnd i s with ⟨x, nn, _, h⟩ | ⟨_, h⟩
  · exact ⟨_, h⟩
  · rw [h]
    exact exec_next i s

/-- A step stops the model only where its execute stage does. -/
theorem cycle_next {ex : Instr → State → Result} (hex : ∀ i s, ∃ t, ex i s = .next t) (s : State) :
    ∃ t, cycle ex s = .next t := by
  rcases cycle_cases ex s with ⟨_, h⟩ | ⟨_, _, _, h⟩ | ⟨_, _, _, _, _, h⟩ | ⟨_, i, _, _, _, h⟩
  · exact ⟨_, h⟩
  · exact ⟨_, h⟩
  · exact ⟨_, h⟩
  · rw [h]
    exact hex i _

/-- Settles O8. The same word is fetched and decoded whatever the execute stage, so the four cases of `step` are those of
`stepRnd` for every input. -/
theorem stepMapsStateToState : Obligations.StepMapsStateToState := by
  unfold Obligations.StepMapsStateToState
  intro s
  refine ⟨fun h => ⟨cycle_idle _ h, fun _ => cycle_idle _ h⟩, cycle_next exec_next s,
    fun rnd => cycle_next (withRnd_exec_next rnd) s, fun hrun => ?_⟩
  rcases cycle_cases exec s with ⟨h, _⟩ | ⟨_, _, hf, h⟩ | ⟨w, r, _, hf, hd, h⟩ | ⟨w, i, _, hf, hd, h⟩
  · exact absurd hrun h
  · exact .inr ⟨.inl hf, _, h, fun _ => cycle_unfetchable _ hrun hf, rfl⟩
  · exact .inr ⟨.inr ⟨w, r, hf, hd⟩, _, h, fun _ => cycle_illegal _ hrun hf hd, rfl⟩
  · exact .inl ⟨w, i, hf, hd, h, fun _ => cycle_ok _ hrun hf hd⟩

/-! ### Fetch and advance (R91 to R93) -/

/-- The word fetched as the number its two bytes spell (R92). -/
theorem fetchWord_eq_ofNat (s : State) (h : s.pc.toNat ≤ 4094) :
    s.fetchWord =
      some (BitVec.ofNat 16 ((s.mem.read s.pc.toNat).toNat * 256 + (s.mem.read (s.pc.toNat + 1)).toNat)) := by
  rw [fetchWord_eq s h, wordOfBytes_eq_ofNat]

/-- The advance of a step that fetches does not wrap (R93). -/
theorem toNat_pc_add_two (s : State) (h : s.pc.toNat ≤ 4094) : (s.pc + 2).toNat = s.pc.toNat + 2 := by
  bv_omega

/-- Settles O6: the number the statement decodes is the word fetched, and the advanced state is written out. -/
theorem stepRunsDecodedInstruction : Obligations.StepRunsDecodedInstruction := by
  unfold Obligations.StepRunsDecodedInstruction
  intro s i hrun hpc hd
  exact ⟨cycle_ok exec hrun (fetchWord_eq_ofNat s hpc) hd, toNat_pc_add_two s hpc⟩

/-! ### `OutOfBoundsFetch` belongs to the fetch (R91, R201) -/

theorem faultOf_ne_outOfBoundsFetch (i : Instr) (s : State) : faultOf i s ≠ some .outOfBoundsFetch := by
  rw [Ne, faultOf_eq_some_iff]
  rintro (⟨h, _⟩ | ⟨h, _⟩ | ⟨h, _⟩) <;> cases h

/-- An execute stage that halts the machine does so by a fault of its own, never by that of the fetch. -/
theorem exec_fault_ne_outOfBoundsFetch {i : Instr} {s t : State} (hs : s.halted = false) (h : exec i s = .next t)
    (ht : t.halted = true) : t.fault.kind ≠ .outOfBoundsFetch := by
  rcases exec_cases i s with ⟨k, hk, he⟩ | ⟨_, u, he, hq⟩
  · obtain rfl := Host.Outcome.next.inj (he.symm.trans h)
    rintro rfl
    exact faultOf_ne_outOfBoundsFetch i s hk
  · obtain rfl := Host.Outcome.next.inj (he.symm.trans h)
    rw [hq.halted, hs] at ht
    cases ht

/-- From a Running state whose `pc` can be fetched from, a step that halts has raised another fault. -/
theorem step_fault_ne_outOfBoundsFetch {s t : State} (hrun : s.runState = .running) (hpc : s.pc.toNat ≤ 4094)
    (h : step s = .next t) (ht : t.halted = true) : t.fault.kind ≠ .outOfBoundsFetch := by
  rcases cycle_cases exec s with ⟨hn, _⟩ | ⟨_, hge, _⟩ | ⟨w, r, _, _, _, he⟩ | ⟨w, i, _, _, _, he⟩
  · exact absurd hrun hn
  · omega
  · obtain rfl := Host.Outcome.next.inj (he.symm.trans h)
    exact nofun
  · exact exec_fault_ne_outOfBoundsFetch (s := s.advance) ((runState_running_iff s).1 hrun).1 (he.symm.trans h) ht

/-- Settles O10: where nothing can be fetched the step is the taking of the fault, and elsewhere no case of it raises that
fault. -/
theorem fetchOutOfBounds : Obligations.FetchOutOfBounds := by
  unfold Obligations.FetchOutOfBounds
  intro s hrun
  refine ⟨fun hpc => ?_, fun hpc t h ht => step_fault_ne_outOfBoundsFetch hrun hpc h ht⟩
  exact ⟨_, cycle_unfetchable exec hrun (fetchWord_none s hpc), rfl, rfl, changesOnly_takeFault ..⟩

end Sys2Proof.Machine

/-! # Control flow (`41_control_flow.md`)

The encoding clauses come from the masks, the meanings from the equations of calls, returns and skips and the frames of the
updates they are made of. -/

namespace Sys2Proof.Machine

/-! ### Words under a mask (R72, R75) -/

/-- The full mask leaves one word. -/
theorem wordsDecode_word {p : Word} {i : Word → Instr} (h : decodeWord p = .ok (i p)) : WordsDecode 0xFFFF p i := by
  intro w hw
  obtain rfl : w = p := (BitVec.and_allOnes (x := w)).symm.trans hw
  exact h

theorem wordsDecode_op {p : Word} {i : Word → Instr} (h : ∀ w, fieldOp w = fieldOp p → decodeWord w = .ok (i w)) :
    WordsDecode 0xF000 p i :=
  fun w hw => h w (op_of_mask w p hw)

theorem wordsDecode_opN {p : Word} {i : Word → Instr}
    (h : ∀ w, fieldOp w = fieldOp p → fieldN w = fieldN p → decodeWord w = .ok (i w)) : WordsDecode 0xF00F p i := by
  intro w hw
  obtain ⟨hop, hN⟩ := opN_of_mask w p hw
  exact h w hop hN

/-! ### Frames of the stack's two fields -/

theorem changesOnly_setSp (s : State) (n : Fin 17) : ChangesOnly s { s with sp := n } (fun p => p = .sp) := by
  refine ⟨fun p hp => ?_⟩
  cases p <;> try rfl
  case sp => exact absurd rfl hp

theorem changesOnly_setStack (s : State) (k : Fin 16) (v : Word) :
    ChangesOnly s { s with stack := s.stack.set k.val v } (fun p => p = .stackEntry k) := by
  refine ⟨fun p hp => ?_⟩
  cases p <;> try rfl
  case stackEntry j =>
    have hne : k.val ≠ j.val := fun e => hp (congrArg Part.stackEntry (Fin.ext e.symm))
    exact Vector.getElem_set_ne k.isLt j.isLt hne

/-! ### Returns and calls -/

theorem exec_ret (s : State) : exec .ret s = execRet s := rfl

theorem exec_call (nnn : Addr) (s : State) : exec (.call nnn) s = callTo (.call nnn) nnn s := rfl

theorem execRet_empty (s : State) (h : s.sp.val = 0) : execRet s = raise .stackUnderflow .ret s := by
  rw [execRet, pop_empty s h]

/-- All that a return from a stack of `k` + 1 entries does (R100). -/
theorem execRet_pops (s : State) (k : Fin 16) (h : s.sp.val = k.val + 1) :
    ∃ t, execRet s = .next t ∧ t.sp.val = k.val ∧ t.pc = s.stack[k] ∧ ChangesOnly s t (fun p => p = .sp ∨ p = .pc) :=
  ⟨_, execRet_eq s k h, rfl, rfl,
    ((changesOnly_setSp s _).weaken fun _ => .inl).trans ((changesOnly_jump _ _).weaken fun _ => .inr)⟩

/-- All that a call onto a stack of `k` < 16 entries does, whatever word asks for it (R101, R103). -/
theorem callTo_pushes (i : Instr) (nnn : Addr) (s : State) (k : Fin 16) (h : s.sp.val = k.val) :
    ∃ t, callTo i nnn s = .next t ∧ t.stack[k] = s.pc ∧ t.sp.val = k.val + 1 ∧ t.pc.toNat = nnn.toNat ∧
      ChangesOnly s t (fun p => p = .stackEntry k ∨ p = .sp ∨ p = .pc) := by
  have hlt : s.sp.val < 16 := h ▸ k.isLt
  obtain rfl : k = ⟨s.sp.val, hlt⟩ := Fin.ext h.symm
  have hstack := changesOnly_setStack s ⟨s.sp.val, hlt⟩ s.pc
  refine ⟨_, callTo_eq i nnn s hlt, Vector.getElem_set_self hlt, rfl, toNat_addrWord nnn, ?_⟩
  exact ((hstack.weaken fun _ => .inl).trans ((changesOnly_setSp _ _).weaken fun _ e => .inr (.inl e))).trans
    ((changesOnly_jump _ _).weaken fun _ e => .inr (.inr e))

/-- Settles O30: an empty stack raises, any other is popped. -/
theorem returnPopsStack : Obligations.ReturnPopsStack := by
  unfold Obligations.ReturnPopsStack
  refine ⟨wordsDecode_word rfl, fun s => ⟨fun hempty => ?_, fun k hk => ?_⟩⟩
  · rw [exec_ret, execRet_empty s hempty]
    exact raise_faulted .stackUnderflow .ret s
  · exact execRet_pops s k hk

/-- Settles O31: a full stack raises, any other is pushed onto. -/
theorem callPushesReturnAddress : Obligations.CallPushesReturnAddress := by
  unfold Obligations.CallPushesReturnAddress
  refine ⟨wordsDecode_op fun _ => decodeWord_op2, fun nnn s => ⟨fun hfull => ?_, fun k hk => ?_⟩⟩
  · rw [exec_call, callTo_full _ nnn s hfull]
    exact raise_faulted .stackOverflow (.call nnn) s
  · exact callTo_pushes (.call nnn) nnn s k hk

/-! ### Jumps -/

/-- A byte and an address add up without wrapping (R108). -/
theorem toNat_byteWord_add_addrWord (v : Byte) (nnn : Addr) :
    (byteWord v + addrWord nnn).toNat = v.toNat + nnn.toNat := by
  have hv := v.isLt
  have hn := nnn.isLt
  rw [BitVec.toNat_add, toNat_byteWord, toNat_addrWord]
  omega

/-- Settles O34: both are jumps, the second to a sum that 16 bits hold. -/
theorem jumpsSetPc : Obligations.JumpsSetPc := by
  unfold Obligations.JumpsSetPc
  refine ⟨wordsDecode_op fun _ => decodeWord_op1, wordsDecode_op fun _ => decodeWord_opB, fun nnn s => ⟨?_, ?_⟩⟩
  · exact ⟨_, rfl, toNat_addrWord nnn, changesOnly_jump ..⟩
  · have hsum := toNat_byteWord_add_addrWord (s.reg 0) nnn
    refine ⟨_, rfl, hsum, ?_, changesOnly_jump ..⟩
    have hv := (s.reg 0).isLt
    have hn := nnn.isLt
    rw [jump_pc, hsum]
    omega

/-! ### Register skips -/

theorem skipIf_beq_pc (s : State) (a b : Byte) : (s.skipIf (a == b)).pc = if a = b then s.pc + 2 else s.pc := by
  simp [skipIf_eq]

theorem skipIf_bne_pc (s : State) (a b : Byte) : (s.skipIf (a != b)).pc = if a = b then s.pc else s.pc + 2 := by
  simp [skipIf_eq]

/-- Settles O35: each of the four is a skip, on equality or on inequality. -/
theorem registerSkips : Obligations.RegisterSkips := by
  unfold Obligations.RegisterSkips
  refine ⟨wordsDecode_op fun _ => decodeWord_op3, wordsDecode_op fun _ => decodeWord_op4,
    wordsDecode_opN fun w hop hN => ?_, wordsDecode_opN fun w hop hN => ?_, fun x y nn s => ⟨?_, ?_, ?_, ?_⟩⟩
  · exact (decodeWord_op5 hop).trans (if_pos hN)
  · exact (decodeWord_op9 hop).trans (if_pos hN)
  · exact ⟨_, rfl, skipIf_beq_pc s (s.reg x) nn, changesOnly_skipIf ..⟩
  · exact ⟨_, rfl, skipIf_bne_pc s (s.reg x) nn, changesOnly_skipIf ..⟩
  · exact ⟨_, rfl, skipIf_beq_pc s (s.reg x) (s.reg y), changesOnly_skipIf ..⟩
  · exact ⟨_, rfl, skipIf_bne_pc s (s.reg x) (s.reg y), changesOnly_skipIf ..⟩

end Sys2Proof.Machine

/-! # Loads, the immediate sum and bitwise logic (`42_alu.md`, R120 to R125)

Each of the six is one write to `x[X]`: the rule for that write gives the value and the frame, and what is left is what the
value says as a number or bit by bit. -/

namespace Sys2Proof.Machine

/-- Family 8 decodes by `N` alone, whatever its registers (R77). -/
theorem wordsDecode_family8 {p : Word} {i : RegIdx → RegIdx → Instr} (hop : fieldOp p = 0x8)
    (hN : ∀ x y, decode8 x y (fieldN p) = .ok (i x y)) : WordsDecode 0xF00F p (fun w => i (fieldX w) (fieldY w)) := by
  refine wordsDecode_opN fun w hwop hwN => ?_
  rw [decodeWord_op8 (hwop.trans hop), hwN]
  exact hN (fieldX w) (fieldY w)

theorem reg_setReg_self (s : State) (x : RegIdx) (v : Byte) : (s.setReg x v).reg x = v := by
  rw [reg_setReg, if_pos rfl]

/-- Settles O37: the sum of two bytes is their sum modulo 256. -/
theorem immediateLoadAndAdd : Obligations.ImmediateLoadAndAdd := by
  unfold Obligations.ImmediateLoadAndAdd
  refine ⟨wordsDecode_op fun _ => decodeWord_op6, wordsDecode_op fun _ => decodeWord_op7, fun x nn s => ⟨?load, ?add⟩⟩
  case load => exact ⟨_, rfl, reg_setReg_self .., changesOnly_setReg ..⟩
  case add =>
    refine ⟨_, rfl, ?_, changesOnly_setReg ..⟩
    rw [reg_setReg_self]
    exact BitVec.toNat_add (s.reg x) nn

/-- Settles O38: the library says of OR, AND and XOR what each bit is. -/
theorem copyAndLogic : Obligations.CopyAndLogic := by
  unfold Obligations.CopyAndLogic
  refine ⟨wordsDecode_family8 rfl fun _ _ => rfl, wordsDecode_family8 rfl fun _ _ => rfl,
    wordsDecode_family8 rfl fun _ _ => rfl, wordsDecode_family8 rfl fun _ _ => rfl,
    fun x y s => ⟨?copy, ?or, ?and, ?xor⟩⟩
  case copy => exact ⟨_, rfl, reg_setReg_self .., changesOnly_setReg ..⟩
  case or =>
    refine ⟨_, rfl, fun b => ?_, changesOnly_setReg ..⟩
    rw [reg_setReg_self, BitVec.getLsbD_or]
  case and =>
    refine ⟨_, rfl, fun b => ?_, changesOnly_setReg ..⟩
    rw [reg_setReg_self, BitVec.getLsbD_and]
  case xor =>
    refine ⟨_, rfl, fun b => ?_, changesOnly_setReg ..⟩
    rw [reg_setReg_self, BitVec.getLsbD_xor]

end Sys2Proof.Machine

/-! # Index register and memory transfer (`43_index_memory.md`)

Where the bound fails, the three transfers raise alike. Where it holds, each is an update of memory or of the registers,
followed by the post-increment of `I` in `FX55` and `FX65`; the frame is put together from the frames of these updates. -/

namespace Sys2Proof.Machine

/-! ### What the three transfers share -/

/-- Family F decodes by `NN` alone, whatever its register (R80). -/
theorem wordsDecode_familyF {p : Word} {i : RegIdx → Instr} (hop : fieldOp p = 0xF)
    (hNN : ∀ x, decodeF x (fieldNN p) = .ok (i x)) : WordsDecode 0xF0FF p (fun w => i (fieldX w)) := by
  intro w hw
  obtain ⟨hwop, hwNN⟩ := opNN_of_mask w p hw
  rw [decodeWord_opF (hwop.trans hop), hwNN]
  exact hNN (fieldX w)

/-- An execute stage that raises answers a next state in which the fault is taken and nothing else changed (R96). -/
theorem exec_faulted {i : Instr} {s : State} {k : FaultKind} (h : faultOf i s = some k) :
    ∃ t, exec i s = .next t ∧ Faulted k (encode i) s t := by
  rw [exec_raises h]
  exact raise_faulted k i s

theorem changesOnly_setI (s : State) (v : Word) : ChangesOnly s { s with I := v } (fun p => p = .index) := by
  refine ⟨fun p hp => ?_⟩
  cases p <;> try rfl
  case index => exact absurd rfl hp

/-- New general registers of which only those in `R` differ from the old ones. -/
theorem changesOnly_setRegs (s : State) (r : Vector Byte 16) {R : RegIdx → Prop}
    (h : ∀ i : RegIdx, ¬ R i → r[i] = s.x[i]) :
    ChangesOnly s { s with x := r } (fun p => ∃ i, R i ∧ p = .reg i) := by
  refine ⟨fun p hp => ?_⟩
  cases p <;> try rfl
  case reg i => exact h i fun hR => hp ⟨i, hR, rfl⟩

/-! ### `I` loaded with an address -/

/-- Settles O42. The address field, zero-extended, is the same number. -/
theorem loadIndex : Obligations.LoadIndex := by
  unfold Obligations.LoadIndex
  exact ⟨wordsDecode_op fun _ => decodeWord_opA,
    fun nnn s => ⟨_, rfl, toNat_addrWord nnn, changesOnly_setI ..⟩⟩

/-! ### Decimal digits (R143) -/

theorem exec_ldB (x : RegIdx) (s : State) : exec (.ldB x) s = execLdB x s := rfl

/-- The three bytes of `decimalDigits`, read back where they are written. -/
theorem read_decimalDigits (m : Memory) (a : Nat) (v : Byte) :
    (m.writeBytes a (decimalDigits v)).read a = v / 100 ∧
      (m.writeBytes a (decimalDigits v)).read (a + 1) = v / 10 % 10 ∧
      (m.writeBytes a (decimalDigits v)).read (a + 2) = v % 10 :=
  have hlen : (decimalDigits v).length = 3 := rfl
  ⟨m.read_writeBytes_add a (k := 0) (decimalDigits v) (by omega),
    m.read_writeBytes_add a (k := 1) (decimalDigits v) (by omega),
    m.read_writeBytes_add a (k := 2) (decimalDigits v) (by omega)⟩

theorem changesOnly_decimalDigits (s : State) (a : Nat) (v : Byte) :
    ChangesOnly s { s with mem := s.mem.writeBytes a (decimalDigits v) }
      (fun p => p = .byte a ∨ p = .byte (a + 1) ∨ p = .byte (a + 2)) := by
  refine (changesOnly_writeBytes s a (decimalDigits v)).weaken ?_
  rintro p ⟨k, hk, rfl⟩
  match k, hk with
  | 0, _ => exact .inl rfl
  | 1, _ => exact .inr (.inl rfl)
  | 2, _ => exact .inr (.inr rfl)

/-- Settles O44. The bytes read back are quotients and remainders of bytes, which are those of the numbers. -/
theorem storeDecimalDigits : Obligations.StoreDecimalDigits := by
  unfold Obligations.StoreDecimalDigits
  refine ⟨wordsDecode_familyF rfl fun _ => rfl, fun x s => ⟨fun hout => ?_, fun hin => ?_⟩⟩
  · exact exec_faulted (if_pos hout)
  · refine ⟨_, (exec_ldB x s).trans (execLdB_eq x s hin), ?_⟩
    rintro _ rfl
    obtain ⟨hhundreds, htens, hones⟩ := read_decimalDigits s.mem s.I.toNat (s.reg x)
    rw [hhundreds, htens, hones]
    exact ⟨BitVec.toNat_udiv, BitVec.toNat_umod.trans (congrArg (· % 10) BitVec.toNat_udiv), BitVec.toNat_umod,
      changesOnly_decimalDigits ..⟩

/-! ### Registers stored (R144) -/

theorem exec_storeRegs (x : RegIdx) (s : State) : exec (.storeRegs x) s = execStoreRegs x s := rfl

theorem changesOnly_storedRegs (s : State) (x : RegIdx) (a : Nat) :
    ChangesOnly s { s with mem := s.mem.writeBytes a (s.regsUpTo x) }
      (fun p => ∃ i : RegIdx, i ≤ x ∧ p = .byte (a + i.val)) := by
  refine (changesOnly_writeBytes s a (s.regsUpTo x)).weaken ?_
  rintro p ⟨k, hk, rfl⟩
  rw [length_regsUpTo] at hk
  exact ⟨⟨k, by omega⟩, Nat.le_of_lt_succ hk, rfl⟩

/-- All that `FX55` does where its bound holds. -/
theorem exec_storeRegs_stores (x : RegIdx) (s : State) (h : s.I.toNat + x.val < 4096) :
    ∃ t, exec (.storeRegs x) s = .next t ∧ t.I.toNat = (s.I.toNat + x.val + 1) % 65536 ∧
      (∀ i : RegIdx, i ≤ x → t.mem.read (s.I.toNat + i.val) = s.reg i) ∧
      ChangesOnly s t (fun p => p = .index ∨ ∃ i : RegIdx, i ≤ x ∧ p = .byte (s.I.toNat + i.val)) :=
  ⟨_, (exec_storeRegs x s).trans (execStoreRegs_eq x s h), toNat_bumpI .., fun i hi => read_storedRegs x i s hi,
    ((changesOnly_storedRegs s x _).weaken fun _ => .inr).trans ((changesOnly_bumpI _ x).weaken fun _ => .inl)⟩

/-- Settles O45: past the end it raises, elsewhere it stores. -/
theorem storeRegisters : Obligations.StoreRegisters := by
  unfold Obligations.StoreRegisters
  refine ⟨wordsDecode_familyF rfl fun _ => rfl, fun x s => ⟨fun hout => ?_, fun hin => ?_⟩⟩
  · exact exec_faulted (if_pos hout)
  · obtain ⟨t, hexec, hI, hread, hframe⟩ := exec_storeRegs_stores x s hin
    refine ⟨t, hexec, hI, ?_⟩
    rintro _ rfl
    exact ⟨hread, hframe⟩

/-! ### Registers loaded (R145) -/

theorem exec_loadRegs (x : RegIdx) (s : State) : exec (.loadRegs x) s = execLoadRegs x s := rfl

/-- All that `FX65` does where its bound holds. -/
theorem exec_loadRegs_loads (x : RegIdx) (s : State) (h : s.I.toNat + x.val < 4096) :
    ∃ t, exec (.loadRegs x) s = .next t ∧ t.I.toNat = (s.I.toNat + x.val + 1) % 65536 ∧
      (∀ i : RegIdx, i ≤ x → t.reg i = s.mem.read (s.I.toNat + i.val)) ∧
      ChangesOnly s t (fun p => p = .index ∨ ∃ i : RegIdx, i ≤ x ∧ p = .reg i) := by
  have hregs (i : RegIdx) := getElem_putRegs_readBytes s.mem s.I.toNat x i s.x
  have hframe := changesOnly_setRegs s _ (R := (· ≤ x)) fun i hi => (hregs i).trans (if_neg hi)
  exact ⟨_, (exec_loadRegs x s).trans (execLoadRegs_eq x s h), toNat_bumpI .., fun i hi => (hregs i).trans (if_pos hi),
    (hframe.weaken fun _ => .inr).trans ((changesOnly_bumpI _ x).weaken fun _ => .inl)⟩

/-- The round trip: `FX65` from the base at which `FX55` stored gives the registers back and leaves `I` where the store
did. -/
theorem exec_loadRegs_undoes_storeRegs {x : RegIdx} {s t u : State} (h : s.I.toNat + x.val < 4096)
    (hstore : exec (.storeRegs x) s = .next t) (hmem : u.mem = t.mem) (hbase : u.I = s.I) :
    ∃ v, exec (.loadRegs x) u = .next v ∧ (∀ i : RegIdx, i ≤ x → v.reg i = s.reg i) ∧ v.I = t.I := by
  obtain ⟨t', ht', htI, hstored, _⟩ := exec_storeRegs_stores x s h
  obtain rfl := Host.Outcome.next.inj (hstore.symm.trans ht')
  obtain ⟨v, hload, hvI, hloaded, _⟩ := exec_loadRegs_loads x u (hbase ▸ h)
  rw [hbase] at hvI hloaded
  rw [hmem] at hloaded
  exact ⟨v, hload, fun i hi => (hloaded i hi).trans (hstored i hi), BitVec.eq_of_toNat_eq (hvI.trans htI.symm)⟩

/-- Settles O46: past the end it raises, elsewhere it loads, and what it loads after a store is what was stored. -/
theorem loadRegisters : Obligations.LoadRegisters := by
  unfold Obligations.LoadRegisters
  refine ⟨wordsDecode_familyF rfl fun _ => rfl, fun x s => ⟨fun hout => ?_, exec_loadRegs_loads x s⟩,
    fun _ _ _ _ => exec_loadRegs_undoes_storeRegs⟩
  exact exec_faulted (if_pos hout)

end Sys2Proof.Machine

/-! # Clearing the screen (`44_display.md`, R161) -/

namespace Sys2Proof.Machine

theorem exec_cls (s : State) : exec .cls s = .next { s with fb := Framebuffer.blank } := rfl

/-- Settles O48: the new framebuffer is the blank one, and it is the only new field. -/
theorem clearScreen : Obligations.ClearScreen := by
  unfold Obligations.ClearScreen
  exact ⟨wordsDecode_word rfl, fun s => ⟨_, exec_cls s, pixel_blank, changesOnly_fb ..⟩⟩

end Sys2Proof.Machine

/-! # Timer access (`45_timers_keys.md`, R180 to R182)

`dt` is written by `FX15`, `TICK` and `RESET` alone: an execute stage that raises leaves it alone by the frame of a fault,
one that raises nothing by the equation of its update. -/

namespace Sys2Proof.Machine

/-! ### The two timer registers -/

theorem changesOnly_setDt (s : State) (v : Byte) : ChangesOnly s { s with dt := v } (fun p => p = .dt) := by
  refine ⟨fun p hp => ?_⟩
  cases p <;> try rfl
  case dt => exact absurd rfl hp

theorem changesOnly_setSt (s : State) (v : Byte) : ChangesOnly s { s with st := v } (fun p => p = .st) := by
  refine ⟨fun p hp => ?_⟩
  cases p <;> try rfl
  case st => exact absurd rfl hp

theorem tone_eq_true_iff (s : State) : s.tone = true ↔ s.st ≠ 0 := by
  rw [State.tone, decide_eq_true_iff]
  bv_omega

theorem toNat_countDown_le (v : Byte) : (countDown v).toNat ≤ v.toNat := by
  unfold countDown
  split
  · bv_omega
  · exact Nat.le_refl _

/-! ### Who leaves `dt` alone -/

@[simp] theorem skipIf_dt (s : State) (c : Bool) : (s.skipIf c).dt = s.dt := by
  rw [skipIf_eq, jump_dt]

/-- An execute stage that raises nothing writes `dt` only in `FX15`. -/
theorem exec_unfaulted_dt {i : Instr} {s : State} (hq : faultOf i s = none) (hi : ∀ x, i ≠ .ldDTVx x) :
    ∃ t, exec i s = .next t ∧ t.dt = s.dt := by
  cases i <;> simp only [faultOf, ite_eq_right_iff, reduceCtorEq, imp_false] at hq
  case ldDTVx x => exact absurd rfl (hi x)
  case ret =>
    have hk : s.sp.val - 1 < 16 := by omega
    exact ⟨_, execRet_eq s ⟨s.sp.val - 1, hk⟩ (by simp only; omega), rfl⟩
  case sys nnn => exact ⟨_, callTo_eq _ nnn s (by omega), rfl⟩
  case call nnn => exact ⟨_, callTo_eq _ nnn s (by omega), rfl⟩
  case ldB x => exact ⟨_, execLdB_eq x s (by omega), rfl⟩
  case storeRegs x => exact ⟨_, execStoreRegs_eq x s (by omega), rfl⟩
  case loadRegs x => exact ⟨_, execLoadRegs_eq x s (by omega), rfl⟩
  case drw x y n => exact ⟨_, execDrw_eq x y n s (by omega), rfl⟩
  case seImm | sneImm | seReg | sneReg | skp | sknp => exact ⟨_, rfl, skipIf_dt ..⟩
  all_goals exact ⟨_, rfl, rfl⟩

/-- The execute stage of an instruction other than `FX15` leaves `dt` alone, whether it raises or not. -/
theorem exec_dt {i : Instr} {s t : State} (h : exec i s = .next t) (hi : ∀ x, i ≠ .ldDTVx x) : t.dt = s.dt := by
  rcases exec_cases i s with ⟨k, _, he⟩ | ⟨hq, _⟩
  · obtain rfl := Host.Outcome.next.inj (he.symm.trans h)
    exact takeFault_dt ..
  · obtain ⟨u, he, hu⟩ := exec_unfaulted_dt hq hi
    obtain rfl := Host.Outcome.next.inj (he.symm.trans h)
    exact hu

theorem withRnd_exec_dt {rnd : Byte} {i : Instr} {s t : State} (h : withRnd rnd exec i s = .next t)
    (hi : ∀ x, i ≠ .ldDTVx x) : t.dt = s.dt := by
  rcases withRnd_cases rnd i s with ⟨x, nn, _, he⟩ | ⟨_, he⟩
  · obtain rfl := Host.Outcome.next.inj (he.symm.trans h)
    rfl
  · exact exec_dt (he.symm.trans h) hi

/-- A `STEP` that does not fetch a word `FX15` leaves `dt` alone. -/
theorem stepRnd_dt {rnd : Byte} {s t : State} (h : stepRnd rnd s = .next t)
    (hw : ∀ w y, s.fetchWord = some w → decodeWord w ≠ .ok (.ldDTVx y)) : t.dt = s.dt := by
  rcases cycle_cases (withRnd rnd exec) s with ⟨_, he⟩ | ⟨_, _, _, he⟩ | ⟨w, r, _, _, _, he⟩ | ⟨w, i, _, hf, hd, he⟩
  · exact (congrArg State.dt (Host.Outcome.next.inj (he.symm.trans h))).symm
  · exact (congrArg State.dt (Host.Outcome.next.inj (he.symm.trans h))).symm
  · exact (congrArg State.dt (Host.Outcome.next.inj (he.symm.trans h))).symm
  · have hi : ∀ x, i ≠ .ldDTVx x := fun x hx => hw w x hf (hx ▸ hd)
    exact withRnd_exec_dt (s := s.advance) (he.symm.trans h) hi

theorem lift_dt (id : Nat) (s : State) : (s.lift id).dt = s.dt := by
  rcases lift_cases id s with ⟨_, he⟩ | ⟨_, _, he⟩ | ⟨r, _, _, he⟩ <;> rw [he] <;> rfl

theorem load_dt {bs : List Byte} {s t : State} (h : s.load bs = .next t) : t.dt = s.dt := by
  rcases load_cases bs s with ⟨_, he⟩ | ⟨_, he⟩ <;> obtain rfl := Host.Outcome.next.inj (he.symm.trans h) <;> rfl

/-- No event but a `STEP` of a word `FX15` raises `dt`: a `TICK` counts it down, a `RESET` clears it, and every other event
leaves it alone. -/
theorem deliver_dt_le {e : Event} {s t : State} (h : deliver e s = .next t)
    (hw : ∀ rnd w y, e = .step rnd → s.fetchWord = some w → decodeWord w ≠ .ok (.ldDTVx y)) :
    t.dt.toNat ≤ s.dt.toNat := by
  cases e with
  | step rnd => exact (congrArg BitVec.toNat (stepRnd_dt h fun w y => hw rnd w y rfl)).le
  | tick =>
    obtain rfl := Host.Outcome.next.inj h
    exact toNat_countDown_le s.dt
  | press id =>
    obtain rfl := Host.Outcome.next.inj h
    exact Nat.le_refl _
  | lift id =>
    obtain rfl := Host.Outcome.next.inj h
    exact (congrArg BitVec.toNat (lift_dt id s)).le
  | load bs => exact (congrArg BitVec.toNat (load_dt h)).le
  | reset =>
    obtain rfl := Host.Outcome.next.inj h
    exact Nat.zero_le _

/-- Settles O51: each of the three is one write, and what events do to `dt` is `deliver_dt_le`. -/
theorem timerAccess : Obligations.TimerAccess := by
  unfold Obligations.TimerAccess
  refine ⟨wordsDecode_familyF rfl fun _ => rfl, wordsDecode_familyF rfl fun _ => rfl, wordsDecode_familyF rfl fun _ => rfl,
    fun x s => ⟨?readDt, ?writeDt, ?writeSt, fun _ _ => deliver_dt_le⟩⟩
  case readDt => exact ⟨_, rfl, reg_setReg_self .., changesOnly_setReg ..⟩
  case writeDt => exact ⟨_, rfl, rfl, changesOnly_setDt ..⟩
  case writeSt => exact ⟨_, rfl, rfl, tone_eq_true_iff _, changesOnly_setSt ..⟩

end Sys2Proof.Machine

/-! # Run states, timers and key events (`60_exceptions.md`, R214 to R219)

A run of events is taken one event at a time. A timer tick counts each timer down once; a key event with no wait pending
is one write to the latch; and the run state changes by a `RESET`, by the release that ends a wait and by a `STEP` from
Running, and by nothing else. -/

namespace Sys2Proof.Machine

/-- A run of events whose first one answers `t` goes on from `t` (R6). -/
theorem deliverAll_cons {e : Event} {s t : State} (es : List Event) (h : deliver e s = .next t) :
    deliverAll (e :: es) s = deliverAll es t := by
  rw [deliverAll, h]

/-! ### Ticks (R215) -/

theorem toNat_countDown (v : Byte) : (countDown v).toNat = v.toNat - 1 := by
  unfold countDown
  split
  · bv_omega
  · omega

theorem changesOnly_tick (s : State) : ChangesOnly s s.tick (fun p => p = .dt ∨ p = .st) :=
  ((changesOnly_setDt s (countDown s.dt)).weaken fun _ => .inl).trans
    ((changesOnly_setSt _ (countDown s.st)).weaken fun _ => .inr)

/-- `n` ticks in a row. -/
theorem deliverAll_ticks (n : Nat) (s : State) :
    ∃ t, deliverAll (List.replicate n .tick) s = .next t ∧ t.dt.toNat = s.dt.toNat - n ∧ t.st.toNat = s.st.toNat - n ∧
      ChangesOnly s t (fun p => p = .dt ∨ p = .st) := by
  induction n generalizing s with
  | zero => exact ⟨s, rfl, rfl, rfl, .refl ..⟩
  | succ n ih =>
    obtain ⟨t, hrun, hdt, hst, hframe⟩ := ih s.tick
    refine ⟨t, (deliverAll_cons _ rfl).trans hrun, ?_, ?_, (changesOnly_tick s).trans hframe⟩
    · rw [hdt, State.tick, toNat_countDown, Nat.sub_sub, Nat.add_comm]
    · rw [hst, State.tick, toNat_countDown, Nat.sub_sub, Nat.add_comm]

/-- Settles O25, by induction on the number of ticks; the tone is read off `st`. -/
theorem ticksCountDown : Obligations.TicksCountDown := by
  unfold Obligations.TicksCountDown
  intro n s
  obtain ⟨t, hrun, hdt, hst, hframe⟩ := deliverAll_ticks n s
  refine ⟨t, hrun, hdt, hst, ?_, hframe⟩
  rw [State.tone, hst, decide_eq_decide]
  exact Nat.sub_pos_iff_lt

/-! ### Key events (R216 to R219) -/

theorem changesOnly_setKey (s : State) (id : Nat) (v : Bool) :
    ChangesOnly s (s.setKey id v) (fun p => ∃ k : Fin 16, k.val = id ∧ p = .key k) := by
  refine ⟨fun p hp => ?_⟩
  cases p <;> try rfl
  case key k => exact (getElem_setKey s id v k).trans (if_neg fun e => hp ⟨k, e.symm, rfl⟩)

theorem getElem_setKey_self (s : State) (id : Nat) (v : Bool) (k : Fin 16) (h : k.val = id) :
    (s.setKey id v).key[k] = v :=
  (getElem_setKey s id v k).trans (if_pos h.symm)

/-- There is no cell for an unrecognized id (R37). -/
theorem setKey_of_unrecognized (s : State) {id : Nat} (v : Bool) (h : 15 < id) : s.setKey id v = s := by
  rw [State.setKey, Vector.setIfInBounds_eq_of_size_le h]

/-- A release with no wait pending only clears its latch bit (R217, R219). -/
theorem lift_of_no_wait (id : Nat) {s : State} (h : s.waiting = none) : s.lift id = s.setKey id false := by
  rcases lift_cases id s with ⟨hid, he⟩ | ⟨_, _, he⟩ | ⟨r, _, hr, _⟩
  · rw [he, setKey_of_unrecognized s false hid]
  · exact he
  · cases h.symm.trans hr

/-- The release that ends a wait (R218). -/
theorem lift_resolves {id : Nat} {s : State} {r : RegIdx} (hw : s.waiting = some r) (hid : id ≤ 15) :
    ((s.lift id).reg r).toNat = id ∧ (s.lift id).waiting = none := by
  rcases lift_cases id s with ⟨hgt, _⟩ | ⟨_, hn, _⟩ | ⟨r', _, hr', he⟩
  · omega
  · cases hw.symm.trans hn
  · obtain rfl := Option.some.inj (hw.symm.trans hr')
    have hreg : (s.lift id).reg r = BitVec.ofNat 8 id := by
      rw [he]
      exact reg_setReg_self ..
    rw [hreg, he]
    exact ⟨Nat.mod_eq_of_lt (by omega), rfl⟩

/-- With no wait pending a key event is one write to the latch. -/
theorem deliver_keyEvent {e : Event} {s : State} (hw : s.waiting = none) (he : ∃ k, e = .lift k ∨ e = .press k) :
    ∃ id v, deliver e s = .next (s.setKey id v) := by
  obtain ⟨k, rfl | rfl⟩ := he
  · exact ⟨k, false, congrArg _ (lift_of_no_wait k hw)⟩
  · exact ⟨k, true, rfl⟩

/-- With no wait pending, key events change only key cells. -/
theorem deliverAll_keyEvents {es : List Event} {s : State} (hw : s.waiting = none)
    (hes : ∀ e ∈ es, ∃ k, e = .lift k ∨ e = .press k) :
    ∃ t, deliverAll es s = .next t ∧ ChangesOnly s t (fun p => ∃ k, p = .key k) := by
  induction es generalizing s with
  | nil => exact ⟨s, rfl, .refl ..⟩
  | cons e es ih =>
    obtain ⟨he, hes⟩ := List.forall_mem_cons.1 hes
    obtain ⟨id, v, hfirst⟩ := deliver_keyEvent hw he
    obtain ⟨t, hrest, hframe⟩ := ih (s := s.setKey id v) hw hes
    have hcell := (changesOnly_setKey s id v).weaken fun _ ⟨k, _, hp⟩ => (⟨k, hp⟩ : ∃ k, _ = Part.key k)
    exact ⟨t, (deliverAll_cons es hfirst).trans hrest, hcell.trans hframe⟩

/-- Settles O28: the first release writes its register and ends the wait, and from there on key events reach the latch
alone. -/
theorem onlyFirstReleaseResolves : Obligations.OnlyFirstReleaseResolves := by
  unfold Obligations.OnlyFirstReleaseResolves
  refine ⟨fun s t r id es hw hid h hes => ?first, fun s t id hw h => ?noWait, fun s t r id hw h => ?press⟩
  case first =>
    obtain rfl := Host.Outcome.next.inj h
    obtain ⟨hreg, hnone⟩ := lift_resolves hw hid
    obtain ⟨u, hrun, hframe⟩ := deliverAll_keyEvents hnone hes
    have hsame : u.reg r = (s.lift id).reg r := hframe.agree (.reg r) nofun
    have hstill : u.waiting = (s.lift id).waiting := hframe.agree .waiting nofun
    exact ⟨u, hrun, hsame ▸ hreg, hstill.trans hnone, hframe⟩
  case noWait =>
    obtain rfl := (lift_of_no_wait id hw).symm.trans (Host.Outcome.next.inj h)
    exact ⟨getElem_setKey_self s id false, changesOnly_setKey .., fun x => ⟨_, rfl, rfl, rfl⟩⟩
  case press =>
    obtain rfl := Host.Outcome.next.inj h
    exact ⟨getElem_setKey_self s id true, hw, changesOnly_setKey ..⟩

/-! ### Who begins a wait (R185) -/

@[simp] theorem skipIf_waiting (s : State) (c : Bool) : (s.skipIf c).waiting = s.waiting := by
  rw [skipIf_eq, jump_waiting]

/-- An execute stage that raises nothing begins a wait only in `FX0A` (R185). -/
theorem exec_unfaulted_waiting {i : Instr} {s : State} (hq : faultOf i s = none) (hi : ∀ x, i ≠ .ldVxK x) :
    ∃ t, exec i s = .next t ∧ t.waiting = s.waiting := by
  cases i <;> simp only [faultOf, ite_eq_right_iff, reduceCtorEq, imp_false] at hq
  case ldVxK x => exact absurd rfl (hi x)
  case ret =>
    have hk : s.sp.val - 1 < 16 := by omega
    exact ⟨_, execRet_eq s ⟨s.sp.val - 1, hk⟩ (by simp only; omega), rfl⟩
  case sys nnn | call nnn => exact ⟨_, callTo_eq _ nnn s (by omega), rfl⟩
  case ldB x => exact ⟨_, execLdB_eq x s (by omega), rfl⟩
  case storeRegs x => exact ⟨_, execStoreRegs_eq x s (by omega), rfl⟩
  case loadRegs x => exact ⟨_, execLoadRegs_eq x s (by omega), rfl⟩
  case drw x y n => exact ⟨_, execDrw_eq x y n s (by omega), rfl⟩
  case seImm | sneImm | seReg | sneReg | skp | sknp => exact ⟨_, rfl, skipIf_waiting ..⟩
  all_goals exact ⟨_, rfl, rfl⟩

/-! ### A `STEP` that halts, and one that does not (R96, R207) -/

theorem faultOf_ne_none (i : Instr) (s : State) : faultOf i s ≠ some .none := by
  rw [Ne, faultOf_eq_some_iff]
  rintro (⟨h, _⟩ | ⟨h, _⟩ | ⟨h, _⟩) <;> cases h

/-- An execute stage takes a fault at the start of the step, or it does not halt the machine and begins a wait only in
`FX0A`. -/
theorem exec_faults_or_runs (i : Instr) (s : State) :
    (∃ k, k ≠ .none ∧ exec i s = .next (s.takeFault k (s.pc - 2) (encode i))) ∨
    (∃ t, exec i s = .next t ∧ t.halted = s.halted ∧ ((∀ x, i ≠ .ldVxK x) → t.waiting = s.waiting)) := by
  rcases exec_cases i s with ⟨k, hk, he⟩ | ⟨hq, t, he, hquiet⟩
  · exact .inl ⟨k, fun e => faultOf_ne_none i s (e ▸ hk), he⟩
  · refine .inr ⟨t, he, hquiet.halted, fun hi => ?_⟩
    obtain ⟨u, hu, hwaiting⟩ := exec_unfaulted_waiting hq hi
    obtain rfl := Host.Outcome.next.inj (he.symm.trans hu)
    exact hwaiting

theorem withRnd_faults_or_runs (rnd : Byte) (i : Instr) (s : State) :
    (∃ k, k ≠ .none ∧ withRnd rnd exec i s = .next (s.takeFault k (s.pc - 2) (encode i))) ∨
    (∃ t, withRnd rnd exec i s = .next t ∧ t.halted = s.halted ∧ ((∀ x, i ≠ .ldVxK x) → t.waiting = s.waiting)) := by
  rcases withRnd_cases rnd i s with ⟨x, nn, _, he⟩ | ⟨_, he⟩
  · exact .inr ⟨_, he, rfl, fun _ => rfl⟩
  · rw [he]
    exact exec_faults_or_runs i s

/-- A `STEP` from Running halts with a fault recorded at the `pc` it began at, or it does not halt and begins a wait
only where it fetches a word `FX0A`. -/
theorem stepRnd_faults_or_runs {rnd : Byte} {s t : State} (hrun : s.runState = .running) (h : stepRnd rnd s = .next t) :
    (∃ u k w, k ≠ .none ∧ t = State.takeFault u k s.pc w) ∨
    (t.halted = false ∧ ((∀ w x, s.fetchWord = some w → decodeWord w ≠ .ok (.ldVxK x)) → t.waiting = none)) := by
  obtain ⟨hhalted, hwaiting⟩ := (runState_running_iff s).1 hrun
  rcases cycle_cases (withRnd rnd exec) s with ⟨hn, _⟩ | ⟨_, _, _, he⟩ | ⟨w, r, _, _, _, he⟩ | ⟨w, i, _, hf, hd, he⟩
  · exact absurd hrun hn
  · exact .inl ⟨_, .outOfBoundsFetch, _, nofun, Host.Outcome.next.inj (h.symm.trans he)⟩
  · exact .inl ⟨_, .illegalInstruction, _, nofun, Host.Outcome.next.inj (h.symm.trans he)⟩
  · have hexec : withRnd rnd exec i s.advance = .next t := he.symm.trans h
    rcases withRnd_faults_or_runs rnd i s.advance with ⟨k, hk, hfault⟩ | ⟨u, hnext, hsame, hwait⟩
    · rw [advance_pc, BitVec.add_sub_cancel] at hfault
      exact .inl ⟨_, k, _, hk, Host.Outcome.next.inj (hexec.symm.trans hfault)⟩
    · obtain rfl := Host.Outcome.next.inj (hnext.symm.trans hexec)
      exact .inr ⟨hsame.trans hhalted, fun hno => (hwait fun x hx => hno w x hf (hx ▸ hd)).trans hwaiting⟩

/-! ### Run states and their transitions (R214) -/

/-- A `STEP` of `FX0A` only advances and begins the wait. -/
theorem stepRnd_ldVxK (rnd : Byte) {s : State} {w : Word} {x : RegIdx} (hrun : s.runState = .running)
    (hf : s.fetchWord = some w) (hd : decodeWord w = .ok (.ldVxK x)) :
    stepRnd rnd s = .next { s.advance with waiting := some x } :=
  cycle_ok _ hrun hf hd

/-- A release with no wait to end leaves the run state alone, Halted with a wait recorded included. -/
theorem lift_runState (id : Nat) {s : State} (h : id ≤ 15 → s.runState ≠ .waiting) :
    (s.lift id).runState = s.runState := by
  rcases lift_cases id s with ⟨_, he⟩ | ⟨_, _, he⟩ | ⟨r, hid, hr, he⟩
  · rw [he]
  · rw [he]
    rfl
  · have hhalted : s.halted = true := by
      by_contra hn
      exact h hid ((runState_waiting_iff s).2 ⟨Bool.eq_false_of_not_eq_true hn, Option.isSome_of_eq_some hr⟩)
    rw [(runState_halted_iff s).2 hhalted, he]
    exact (runState_halted_iff _).2 hhalted

/-- The release of a recognized key ends a wait (R218). -/
theorem lift_runState_of_waiting {id : Nat} {s : State} (h : s.runState = .waiting) (hid : id ≤ 15) :
    (s.lift id).runState = .running := by
  obtain ⟨hhalted, hsome⟩ := (runState_waiting_iff s).1 h
  obtain ⟨r, hr⟩ := Option.isSome_iff_exists.1 hsome
  rcases lift_cases id s with ⟨hgt, _⟩ | ⟨_, hn, _⟩ | ⟨r', _, _, he⟩
  · omega
  · cases hr.symm.trans hn
  · rw [he]
    exact (runState_running_iff _).2 ⟨hhalted, rfl⟩

theorem load_runState {bs : List Byte} {s t : State} (h : s.load bs = .next t) : t.runState = s.runState := by
  rcases load_cases bs s with ⟨_, he⟩ | ⟨_, he⟩ <;> obtain rfl := Host.Outcome.next.inj (he.symm.trans h) <;> rfl

/-- The run state changes by a `RESET`, by the release that ends a wait and by a `STEP` from Running, and by nothing
else. -/
theorem deliver_runState {e : Event} {s t : State} (h : deliver e s = .next t) (hreset : e ≠ .reset)
    (hlift : ∀ id, id ≤ 15 → e = .lift id → s.runState ≠ .waiting)
    (hstep : ∀ rnd, e = .step rnd → s.runState ≠ .running) : t.runState = s.runState := by
  cases e with
  | step rnd =>
    obtain rfl := Host.Outcome.next.inj ((cycle_idle _ (hstep rnd rfl)).symm.trans h)
    rfl
  | tick | press id =>
    obtain rfl := Host.Outcome.next.inj h
    rfl
  | lift id =>
    obtain rfl := Host.Outcome.next.inj h
    exact lift_runState id fun hid => hlift id hid rfl
  | load bs => exact load_runState h
  | reset => exact absurd rfl hreset

/-- Settles O22: where no transition is due, `deliver_runState`; a wait ends in `lift_runState_of_waiting`; and a `STEP`
from Running begins a wait, halts or does neither. -/
theorem runStateTransitions : Obligations.RunStateTransitions := by
  unfold Obligations.RunStateTransitions
  intro e s t h
  have hreset : e = .reset → t.runState = .running := by
    rintro rfl
    obtain rfl := Host.Outcome.next.inj h
    rfl
  refine ⟨hreset, fun hs hne => ?halted, fun hs => ⟨?release, fun hno hne => ?stays, ?idle⟩,
    fun hs => ⟨fun rnd he => ⟨fun w x hf hd => ?waits, fun hno => ⟨fun ht => ?halts, fun ht => ?runs⟩⟩,
      fun hno => ?other⟩⟩
  case halted =>
    exact (deliver_runState h hne (fun _ _ _ => hs ▸ nofun) fun _ _ => hs ▸ nofun).trans hs
  case release =>
    rintro ⟨id, hid, rfl⟩
    obtain rfl := Host.Outcome.next.inj h
    exact lift_runState_of_waiting hs hid
  case stays =>
    exact (deliver_runState h hne (fun id hid he => absurd he (hno id hid)) fun _ _ => hs ▸ nofun).trans hs
  case idle =>
    rintro rnd rfl
    exact (Host.Outcome.next.inj ((cycle_idle _ (hs ▸ nofun)).symm.trans h)).symm
  case waits =>
    subst he
    obtain rfl := Host.Outcome.next.inj ((stepRnd_ldVxK rnd hs hf hd).symm.trans h)
    exact ⟨(runState_waiting_iff _).2 ⟨((runState_running_iff s).1 hs).1, rfl⟩, rfl⟩
  case halts =>
    subst he
    rcases stepRnd_faults_or_runs hs h with ⟨u, k, w, hk, rfl⟩ | ⟨hnot, _⟩
    · exact ⟨(runState_halted_iff _).2 rfl, hk, rfl⟩
    · cases ht.symm.trans hnot
  case runs =>
    subst he
    rcases stepRnd_faults_or_runs hs h with ⟨u, k, w, _, rfl⟩ | ⟨_, hwait⟩
    · cases ht
    · exact (runState_running_iff t).2 ⟨ht, hwait hno⟩
  case other =>
    by_cases hne : e = .reset
    · exact hreset hne
    · exact (deliver_runState h hne (fun _ _ _ => hs ▸ nofun) fun rnd he => absurd he (hno rnd)).trans hs

end Sys2Proof.Machine

/-! # `RESET` and an oversize `LOAD` (`70_reset_and_hazards.md`, R240 to R244)

A reset state, at power-on or by `RESET`, is `State.reset` but for the model's own draw counter, so each field is read off
`State.reset`; what is left to say there is what its cells and pixels hold. An oversize image is one write to the result
port. -/

namespace Sys2Proof.Machine

/-! ### An oversize image (R244) -/

theorem changesOnly_setLoadResult (s : State) (r : Option LoadResult) :
    ChangesOnly s { s with loadResult := r } (fun p => p = .loadResult) := by
  refine ⟨fun p hp => ?_⟩
  cases p <;> try rfl
  case loadResult => exact absurd rfl hp

theorem load_oversize {bs : List Byte} (s : State) (h : 3584 < bs.length) :
    s.load bs = .next { s with loadResult := some .programTooLarge } := by
  rcases load_cases bs s with ⟨hle, _⟩ | ⟨_, he⟩
  · omega
  · exact he

/-- Settles O24: the image is rejected, which writes the result port alone. -/
theorem oversizeLoadChangesNothing : Obligations.OversizeLoadChangesNothing := by
  unfold Obligations.OversizeLoadChangesNothing
  intro bytes s h
  exact ⟨_, load_oversize s h, rfl, rfl, changesOnly_setLoadResult ..⟩

/-! ### The reset values (R240, R242) -/

theorem reset_reg (i : RegIdx) : State.reset.reg i = 0 := Vector.getElem_replicate i.isLt

theorem reset_stack (k : Fin 16) : State.reset.stack[k] = 0 := Vector.getElem_replicate k.isLt

theorem reset_key (k : Fin 16) : State.reset.key[k] = false := Vector.getElem_replicate k.isLt

/-- Power-on and `RESET` lead to the same state, but for the draw counter that only `RESET` keeps (log 3). -/
theorem eq_reset_with_draws {s t : State} (h : t = State.reset ∨ deliver .reset s = .next t) :
    ∃ n, t = { State.reset with draws := n } := by
  rcases h with rfl | h
  · exact ⟨0, rfl⟩
  · exact ⟨s.draws, (Host.Outcome.next.inj h).symm⟩

/-- Settles O20: no field but the draw counter differs from `State.reset`, whose cells and pixels are all 0. -/
theorem resetValues : Obligations.ResetValues := by
  unfold Obligations.ResetValues
  intro s t h
  obtain ⟨n, rfl⟩ := eq_reset_with_draws h
  exact ⟨fun _ => rfl, reset_reg, rfl, rfl, reset_stack, rfl, rfl, rfl, rfl, pixel_blank, reset_key, rfl, rfl, rfl, rfl⟩

end Sys2Proof.Machine

/-! # Decoder and encoder (`30_encoding.md`)

A word is taken apart by its op nibble (R74); families 8, E and F are then read by `N` or by `NN` (R77, R79, R80). -/

namespace Sys2Proof.Machine

/-! ### From an instruction to its word and back -/

/-- The word of a well-formed instruction decodes to it: the lemmas of `Laws.RoundTrip`, constructor by constructor. -/
theorem decodeWord_encode (i : Instr) : Laws.RoundTrip.Statement i := by
  cases i with
  | cls => exact Laws.RoundTrip.cls
  | ret => exact Laws.RoundTrip.ret
  | sys nnn => exact Laws.RoundTrip.sys nnn
  | jp nnn => exact Laws.RoundTrip.jp nnn
  | call nnn => exact Laws.RoundTrip.call nnn
  | seImm x nn => exact Laws.RoundTrip.seImm x nn
  | sneImm x nn => exact Laws.RoundTrip.sneImm x nn
  | seReg x y => exact Laws.RoundTrip.seReg x y
  | ldImm x nn => exact Laws.RoundTrip.ldImm x nn
  | addImm x nn => exact Laws.RoundTrip.addImm x nn
  | ldReg x y => exact Laws.RoundTrip.ldReg x y
  | orReg x y => exact Laws.RoundTrip.orReg x y
  | andReg x y => exact Laws.RoundTrip.andReg x y
  | xorReg x y => exact Laws.RoundTrip.xorReg x y
  | addReg x y => exact Laws.RoundTrip.addReg x y
  | sub x y => exact Laws.RoundTrip.sub x y
  | shr x y => exact Laws.RoundTrip.shr x y
  | subn x y => exact Laws.RoundTrip.subn x y
  | shl x y => exact Laws.RoundTrip.shl x y
  | sneReg x y => exact Laws.RoundTrip.sneReg x y
  | ldI nnn => exact Laws.RoundTrip.ldI nnn
  | jpV0 nnn => exact Laws.RoundTrip.jpV0 nnn
  | rnd x nn => exact Laws.RoundTrip.rnd x nn
  | drw x y n => exact Laws.RoundTrip.drw x y n
  | skp x => exact Laws.RoundTrip.skp x
  | sknp x => exact Laws.RoundTrip.sknp x
  | ldVxDT x => exact Laws.RoundTrip.ldVxDT x
  | ldVxK x => exact Laws.RoundTrip.ldVxK x
  | ldDTVx x => exact Laws.RoundTrip.ldDTVx x
  | ldSTVx x => exact Laws.RoundTrip.ldSTVx x
  | addI x => exact Laws.RoundTrip.addI x
  | ldF x => exact Laws.RoundTrip.ldF x
  | ldB x => exact Laws.RoundTrip.ldB x
  | storeRegs x => exact Laws.RoundTrip.storeRegs x
  | loadRegs x => exact Laws.RoundTrip.loadRegs x

/-- The decoder reads two bytes and gives back the rest (R70). -/
theorem decode_bytesOfWord {w : Word} {i : Instr} (rest : List Byte) (h : decodeWord w = .ok i) :
    decode (bytesOfWord w ++ rest) = .ok (i, rest) := by
  simp only [bytesOfWord, List.cons_append, List.nil_append, decode, wordOfBytes_bytes, h]

/-- Settles O1: the bytes of an instruction are those of its word, which decodes to it. -/
theorem decodeEncodeRoundTrip : Obligations.DecodeEncodeRoundTrip := by
  unfold Obligations.DecodeEncodeRoundTrip
  exact fun i rest hwf => decode_bytesOfWord rest (decodeWord_encode i hwf)

/-! ### From a word to its instruction and back -/

/-- Formats `A`, `XB` and `XYN` (R72) put a word together again from the fields read out of it. -/
theorem encA_of_op {w : Word} {op : Nibble} (h : fieldOp w = op) : encA op (fieldNNN w) = w := by
  subst h; exact encA_fields w

theorem encXB_of_op {w : Word} {op : Nibble} (h : fieldOp w = op) : encXB op (fieldX w) (fieldNN w) = w := by
  subst h; exact encXB_fields w

theorem encXYN_of_op {w : Word} {op : Nibble} (h : fieldOp w = op) :
    encXYN op (fieldX w) (fieldY w) (fieldN w) = w := by
  subst h; exact encXYN_fields w

/-- All that family 0 decodes to (R76): `SYS` takes the words that are neither of the two fixed ones. -/
theorem decode0_wf_encode {w : Word} (hop : fieldOp w = 0x0) : (decode0 w).wf = true ∧ encode (decode0 w) = w := by
  unfold decode0
  split
  · next h => exact ⟨rfl, h.symm⟩
  split
  · next h => exact ⟨rfl, h.symm⟩
  · next hcls hret =>
    have hw : encA 0x0 (fieldNNN w) = w := encA_of_op hop
    refine ⟨?_, hw⟩
    have h1 : fieldNNN w ≠ 0x0E0#12 := fun e => hcls (by rw [← hw, e]; rfl)
    have h2 : fieldNNN w ≠ 0x0EE#12 := fun e => hret (by rw [← hw, e]; rfl)
    simp only [Instr.wf, bne_iff_ne.2 h1, bne_iff_ne.2 h2, Bool.and_self]

/-- All that family 8 can decode to (R77). -/
theorem decode8_ok {x y : RegIdx} {n : Nibble} {i : Instr} (h : decode8 x y n = .ok i) :
    i.wf = true ∧ encode i = encXYN 0x8 x y n := by
  unfold decode8 at h
  split at h
  case h_10 => cases h
  all_goals
    next hn =>
      obtain rfl := Except.ok.inj h
      have hn := congrArg (BitVec.ofNat 4) hn
      rw [BitVec.ofNat_toNat, BitVec.setWidth_eq] at hn
      subst hn
      exact ⟨rfl, rfl⟩

theorem decodeE_wf_encode {x : RegIdx} {nn : Byte} {i : Instr} (h : decodeE x nn = .ok i) :
    i.wf = true ∧ encode i = encXB 0xE x nn := by
  rcases decodeE_ok h with ⟨rfl, rfl⟩ | ⟨rfl, rfl⟩ <;> exact ⟨rfl, rfl⟩

theorem decodeF_wf_encode {x : RegIdx} {nn : Byte} {i : Instr} (h : decodeF x nn = .ok i) :
    i.wf = true ∧ encode i = encXB 0xF x nn := by
  rcases decodeF_ok h with ⟨rfl, rfl⟩ | ⟨rfl, rfl⟩ | ⟨rfl, rfl⟩ | ⟨rfl, rfl⟩ | ⟨rfl, rfl⟩ | ⟨rfl, rfl⟩ | ⟨rfl, rfl⟩ |
    ⟨rfl, rfl⟩ | ⟨rfl, rfl⟩ <;> exact ⟨rfl, rfl⟩

/-- Families 5 and 9 have one instruction each, with `N` = 0 (R78). -/
theorem encXYN_of_op_of_N {w : Word} {op n : Nibble} (h : fieldOp w = op) (hN : fieldN w = n) :
    encXYN op (fieldX w) (fieldY w) n = w := by
  subst hN; exact encXYN_of_op h

/-- Settles O2, family by family. -/
theorem encodeDecodeRoundTrip : Obligations.EncodeDecodeRoundTrip := by
  unfold Obligations.EncodeDecodeRoundTrip
  intro w i hd
  rcases nibble_cases (fieldOp w) with h | h | h | h | h | h | h | h | h | h | h | h | h | h | h | h
  · obtain rfl := Except.ok.inj ((decodeWord_op0 h).symm.trans hd)
    exact decode0_wf_encode h
  · obtain rfl := Except.ok.inj ((decodeWord_op1 h).symm.trans hd)
    exact ⟨rfl, encA_of_op h⟩
  · obtain rfl := Except.ok.inj ((decodeWord_op2 h).symm.trans hd)
    exact ⟨rfl, encA_of_op h⟩
  · obtain rfl := Except.ok.inj ((decodeWord_op3 h).symm.trans hd)
    exact ⟨rfl, encXB_of_op h⟩
  · obtain rfl := Except.ok.inj ((decodeWord_op4 h).symm.trans hd)
    exact ⟨rfl, encXB_of_op h⟩
  · have hd := (decodeWord_op5 h).symm.trans hd
    split at hd
    · next hN =>
      obtain rfl := Except.ok.inj hd
      exact ⟨rfl, encXYN_of_op_of_N h hN⟩
    · cases hd
  · obtain rfl := Except.ok.inj ((decodeWord_op6 h).symm.trans hd)
    exact ⟨rfl, encXB_of_op h⟩
  · obtain rfl := Except.ok.inj ((decodeWord_op7 h).symm.trans hd)
    exact ⟨rfl, encXB_of_op h⟩
  · obtain ⟨hwf, henc⟩ := decode8_ok ((decodeWord_op8 h).symm.trans hd)
    exact ⟨hwf, henc.trans (encXYN_of_op h)⟩
  · have hd := (decodeWord_op9 h).symm.trans hd
    split at hd
    · next hN =>
      obtain rfl := Except.ok.inj hd
      exact ⟨rfl, encXYN_of_op_of_N h hN⟩
    · cases hd
  · obtain rfl := Except.ok.inj ((decodeWord_opA h).symm.trans hd)
    exact ⟨rfl, encA_of_op h⟩
  · obtain rfl := Except.ok.inj ((decodeWord_opB h).symm.trans hd)
    exact ⟨rfl, encA_of_op h⟩
  · obtain rfl := Except.ok.inj ((decodeWord_opC h).symm.trans hd)
    exact ⟨rfl, encXB_of_op h⟩
  · obtain rfl := Except.ok.inj ((decodeWord_opD h).symm.trans hd)
    exact ⟨rfl, encXYN_of_op h⟩
  · obtain ⟨hwf, henc⟩ := decodeE_wf_encode ((decodeWord_opE h).symm.trans hd)
    exact ⟨hwf, henc.trans (encXB_of_op h)⟩
  · obtain ⟨hwf, henc⟩ := decodeF_wf_encode ((decodeWord_opF h).symm.trans hd)
    exact ⟨hwf, henc.trans (encXB_of_op h)⟩

/-! ### The opcode map (R75) -/

/-- Family 0 but for its two fixed words (R76). -/
theorem decodeWord_sys {w : Word} (hop : w &&& 0xF000 = 0x0000) (hcls : w ≠ 0x00E0#16) (hret : w ≠ 0x00EE#16) :
    decodeWord w = .ok (.sys (fieldNNN w)) := by
  rw [decodeWord_op0 (op_of_mask w 0x0000 hop), decode0, if_neg hcls, if_neg hret]

/-- Family E decodes by `NN` alone, whatever its register (R79). -/
theorem wordsDecode_familyE {p : Word} {i : RegIdx → Instr} (hop : fieldOp p = 0xE)
    (hNN : ∀ x, decodeE x (fieldNN p) = .ok (i x)) : WordsDecode 0xF0FF p (fun w => i (fieldX w)) := by
  intro w hw
  obtain ⟨hwop, hwNN⟩ := opNN_of_mask w p hw
  rw [decodeWord_opE (hwop.trans hop), hwNN]
  exact hNN (fieldX w)

/-- Settles O3: a mask fixes the op nibble, and with it what family 8, E or F is read by; family after family. -/
theorem opcodeMapDecodes : Obligations.OpcodeMapDecodes := by
  unfold Obligations.OpcodeMapDecodes
  refine ⟨?family0, ?addresses, ?immediates, ?registers, ?sprite, ?keysTimersMemory⟩
  case family0 => exact ⟨wordsDecode_word rfl, wordsDecode_word rfl, fun _ => decodeWord_sys⟩
  case addresses =>
    exact ⟨wordsDecode_op fun _ => decodeWord_op1, wordsDecode_op fun _ => decodeWord_op2,
      wordsDecode_op fun _ => decodeWord_opA, wordsDecode_op fun _ => decodeWord_opB⟩
  case immediates =>
    exact ⟨wordsDecode_op fun _ => decodeWord_op3, wordsDecode_op fun _ => decodeWord_op4,
      wordsDecode_op fun _ => decodeWord_op6, wordsDecode_op fun _ => decodeWord_op7,
      wordsDecode_op fun _ => decodeWord_opC⟩
  case registers =>
    refine ⟨wordsDecode_opN fun w hop hN => (decodeWord_op5 hop).trans (if_pos hN),
      wordsDecode_opN fun w hop hN => (decodeWord_op9 hop).trans (if_pos hN), ?_, ?_, ?_, ?_, ?_, ?_, ?_, ?_, ?_⟩
    all_goals exact wordsDecode_family8 rfl fun _ _ => rfl
  case sprite => exact wordsDecode_op fun _ => decodeWord_opD
  case keysTimersMemory =>
    refine ⟨wordsDecode_familyE rfl fun _ => rfl, wordsDecode_familyE rfl fun _ => rfl,
      ?_, ?_, ?_, ?_, ?_, ?_, ?_, ?_, ?_⟩
    all_goals exact wordsDecode_familyF rfl fun _ => rfl

/-! ### Illegal words (R81) -/

/-- Family 8 rejects the values of `N` that no row has (R77). -/
theorem decode8_error_iff {x y : RegIdx} {n : Nibble} :
    (∃ r, decode8 x y n = .error r) ↔ n ∈ [0x8#4, 0x9#4, 0xA#4, 0xB#4, 0xC#4, 0xD#4, 0xF#4] := by
  rcases nibble_cases n with rfl | rfl | rfl | rfl | rfl | rfl | rfl | rfl | rfl | rfl | rfl | rfl | rfl | rfl | rfl |
    rfl <;> simp [decode8]

/-- Families 5 and 9 reject `N` ≠ 0 (R78). -/
theorem ite_ok_error_iff {P : Prop} [Decidable P] {i : Instr} {e : Reject} :
    (∃ r, (if P then Except.ok i else Except.error e) = .error r) ↔ ¬ P := by
  by_cases h : P <;> simp [h]

/-- Settles O4: eleven families reject no word, and the other five what their second level rejects. -/
theorem illegalWordsAreTheListed : Obligations.IllegalWordsAreTheListed := by
  unfold Obligations.IllegalWordsAreTheListed
  intro w
  rcases nibble_cases (fieldOp w) with h | h | h | h | h | h | h | h | h | h | h | h | h | h | h | h
  · simp [decodeWord_op0 h, h]
  · simp [decodeWord_op1 h, h]
  · simp [decodeWord_op2 h, h]
  · simp [decodeWord_op3 h, h]
  · simp [decodeWord_op4 h, h]
  · simp [decodeWord_op5 h, ite_ok_error_iff, h]
  · simp [decodeWord_op6 h, h]
  · simp [decodeWord_op7 h, h]
  · simp [decodeWord_op8 h, decode8_error_iff, h]
  · simp [decodeWord_op9 h, ite_ok_error_iff, h]
  · simp [decodeWord_opA h, h]
  · simp [decodeWord_opB h, h]
  · simp [decodeWord_opC h, h]
  · simp [decodeWord_opD h, h]
  · simp [decodeWord_opE h, decodeE_error_iff, h]
  · simp [decodeWord_opF h, decodeF_error_iff, h]

/-- Settles O5: closed words, which the decoder evaluates. -/
theorem sampleWordsDecode : Obligations.SampleWordsDecode := by
  unfold Obligations.SampleWordsDecode
  exact ⟨rfl, rfl, rfl, rfl, rfl, rfl, rfl, rfl, rfl, rfl⟩

end Sys2Proof.Machine

/-! # Every execute stage as one state

`faultOf` says whether an execute stage raises; `effect` says, as one updated state, what it leaves where it does not. The
two together are all of `exec`, random input included, so a fact about the whole instruction set is a case split over
`effect`, whose fields are read off. -/

namespace Sys2Proof.Machine

/-- A skip's target: `pc` + 2 where the condition holds. -/
def skipPc (s : State) (c : Bool) : Word := if c then s.pc + 2 else s.pc

/-- What the push of `pc` leaves where the stack is not full (R103); `callTo_eq_pushed` ties it to the model. -/
def pushed (s : State) : State :=
  { s with stack := s.stack.setIfInBounds s.sp.val s.pc, sp := Fin.ofNat 17 (s.sp.val + 1) }

/-- The state the execute stage of `i` leaves when it raises nothing, its random input being `rnd`. -/
def effect (rnd : Byte) (i : Instr) (s : State) : State :=
  match i with
  | .cls => { s with fb := Framebuffer.blank }
  | .ret => ({ s with sp := ⟨s.sp.val - 1, by omega⟩ } : State).jump (s.stack[s.sp.val - 1]'(by omega))
  | .sys nnn | .call nnn => (pushed s).jump (addrWord nnn)
  | .jp nnn => s.jump (addrWord nnn)
  | .jpV0 nnn => s.jump (byteWord (s.reg 0) + addrWord nnn)
  | .seImm x nn => s.jump (skipPc s (s.reg x == nn))
  | .sneImm x nn => s.jump (skipPc s (s.reg x != nn))
  | .seReg x y => s.jump (skipPc s (s.reg x == s.reg y))
  | .sneReg x y => s.jump (skipPc s (s.reg x != s.reg y))
  | .skp x => s.jump (skipPc s (s.pressed (s.reg x)))
  | .sknp x => s.jump (skipPc s (!s.pressed (s.reg x)))
  | .ldImm x nn => s.setReg x nn
  | .addImm x nn => s.setReg x (s.reg x + nn)
  | .ldReg x y => s.setReg x (s.reg y)
  | .orReg x y => s.setReg x (s.reg x ||| s.reg y)
  | .andReg x y => s.setReg x (s.reg x &&& s.reg y)
  | .xorReg x y => s.setReg x (s.reg x ^^^ s.reg y)
  | .addReg x y => s.setFlagThenResult x (carry (s.reg x) (s.reg y)) (s.reg x + s.reg y)
  | .sub x y => s.setFlagThenResult x (noBorrow (s.reg x) (s.reg y)) (s.reg x - s.reg y)
  | .subn x y => s.setFlagThenResult x (noBorrow (s.reg y) (s.reg x)) (s.reg y - s.reg x)
  | .shr x _ => s.setFlagThenResult x (shrOut (s.reg x)) (s.reg x >>> 1)
  | .shl x _ => s.setFlagThenResult x (shlOut (s.reg x)) (s.reg x <<< 1)
  | .rnd x nn => { s.setReg x (rnd &&& nn) with draws := s.draws + 1 }
  | .ldI nnn => { s with I := addrWord nnn }
  | .addI x => { s with I := s.I + byteWord (s.reg x) }
  | .ldF x => { s with I := byteWord (s.reg x) * 5 }
  | .ldB x => { s with mem := s.mem.writeBytes s.I.toNat (decimalDigits (s.reg x)) }
  | .storeRegs x => ({ s with mem := s.mem.writeBytes s.I.toNat (s.regsUpTo x) } : State).bumpI x
  | .loadRegs x => ({ s with x := putRegs 0 (s.mem.readBytes s.I.toNat (x.val + 1)) s.x } : State).bumpI x
  | .drw x y n => ({ s with fb := (drawn x y n s).1 } : State).setReg 15 (flagByte (drawn x y n s).2)
  | .ldVxDT x => s.setReg x s.dt
  | .ldVxK x => { s with waiting := some x }
  | .ldDTVx x => { s with dt := s.reg x }
  | .ldSTVx x => { s with st := s.reg x }

theorem callTo_eq_pushed (i : Instr) (nnn : Addr) (s : State) (h : s.sp.val ≠ 16) :
    callTo i nnn s = .next ((pushed s).jump (addrWord nnn)) := by
  have hlt : s.sp.val < 16 := by omega
  have hstack : s.stack.setIfInBounds s.sp.val s.pc = s.stack.set s.sp.val s.pc hlt :=
    Vector.ext fun j hj => by rw [Vector.getElem_setIfInBounds, Vector.getElem_set]
  have hsp : Fin.ofNat 17 (s.sp.val + 1) = ⟨s.sp.val + 1, Nat.succ_lt_succ hlt⟩ :=
    Fin.ext (Nat.mod_eq_of_lt (Nat.succ_lt_succ hlt))
  rw [callTo_eq i nnn s hlt, pushed, hstack, hsp]

/-- All that an execute stage that raises nothing does. -/
theorem withRnd_exec_unfaulted {rnd : Byte} {i : Instr} {s : State} (hq : faultOf i s = none) :
    withRnd rnd exec i s = .next (effect rnd i s) := by
  cases i <;> simp only [faultOf, ite_eq_right_iff, reduceCtorEq, imp_false] at hq
  case ret => exact execRet_eq s ⟨s.sp.val - 1, by omega⟩ (by simp only; omega)
  case sys nnn | call nnn => exact callTo_eq_pushed _ nnn s hq
  case ldB x => exact execLdB_eq x s (by omega)
  case storeRegs x => exact execStoreRegs_eq x s (by omega)
  case loadRegs x => exact execLoadRegs_eq x s (by omega)
  case drw x y n => exact execDrw_eq x y n s (by omega)
  case seImm | sneImm | seReg | sneReg | skp | sknp => exact congrArg _ (skipIf_eq ..)
  all_goals rfl

theorem withRnd_exec_raises (rnd : Byte) {i : Instr} {s : State} {k : FaultKind} (h : faultOf i s = some k) :
    withRnd rnd exec i s = raise k i s := by
  rcases withRnd_cases rnd i s with ⟨x, nn, rfl, _⟩ | ⟨_, he⟩
  · cases h
  · exact he.trans (exec_raises h)

/-- `exec` is the execute stage whose random input is the model's free value (log 2). -/
theorem exec_eq_withRnd (i : Instr) (s : State) : exec i s = withRnd (Config.randomByte s.draws) exec i s := by
  cases i <;> rfl

theorem exec_unfaulted {i : Instr} {s : State} (hq : faultOf i s = none) :
    exec i s = .next (effect (Config.randomByte s.draws) i s) :=
  (exec_eq_withRnd i s).trans (withRnd_exec_unfaulted hq)

/-- What an execute stage has done that answered `t`: it raised, or it had its effect. -/
theorem takeFault_or_effect_of_exec {i : Instr} {s t : State} (h : exec i s = .next t) :
    (∃ k, faultOf i s = some k ∧ t = s.takeFault k (s.pc - 2) (encode i)) ∨
    (faultOf i s = none ∧ t = effect (Config.randomByte s.draws) i s) := by
  cases hq : faultOf i s with
  | some k => exact .inl ⟨k, rfl, Host.Outcome.next.inj (h.symm.trans (exec_raises hq))⟩
  | none => exact .inr ⟨rfl, Host.Outcome.next.inj (h.symm.trans (exec_unfaulted hq))⟩

/-- `Quiet` of the state an effect leaves. -/
theorem quiet_effect (rnd : Byte) {i : Instr} {s : State} (hq : faultOf i s = none) : Quiet s (effect rnd i s) := by
  rcases withRnd_cases rnd i s with ⟨x, nn, rfl, _⟩ | ⟨_, he⟩
  · exact ⟨rfl, rfl, rfl, rfl, id⟩
  · obtain ⟨t, ht, hquiet⟩ := exec_quiet hq
    obtain rfl := Host.Outcome.next.inj ((he.trans ht).symm.trans (withRnd_exec_unfaulted hq))
    exact hquiet

/-- The advance touches nothing that a fault depends on. -/
theorem faultOf_advance (i : Instr) (s : State) : faultOf i s.advance = faultOf i s := by
  cases i <;> rfl

/-- Settles O9: an execute stage raises or has its effect, and both are next states. -/
theorem execStaysInsideMemory : Obligations.ExecStaysInsideMemory := by
  unfold Obligations.ExecStaysInsideMemory
  exact exec_next

/-! ### A `STEP` as one of five cases (R97) -/

/-- What a `STEP` with random input `rnd` has done that leads from `s` to `t`. -/
inductive StepTo (rnd : Byte) (s : State) : State → Prop where
  /-- The gate is closed (R90). -/
  | idle (h : s.runState ≠ .running) : StepTo rnd s s
  /-- Nothing can be fetched (R91). -/
  | unfetchable (hrun : s.runState = .running) (hf : s.fetchWord = none) (hpc : 4095 ≤ s.pc.toNat) :
      StepTo rnd s (s.takeFault .outOfBoundsFetch s.pc 0)
  /-- The word fetched is illegal (R81). -/
  | illegal (hrun : s.runState = .running) {w : Word} {r : Reject} (hf : s.fetchWord = some w)
      (hd : decodeWord w = .error r) : StepTo rnd s (s.advance.takeFault .illegalInstruction s.pc w)
  /-- The execute stage raises (R96). -/
  | raises (hrun : s.runState = .running) {w : Word} {i : Instr} {k : FaultKind} (hf : s.fetchWord = some w)
      (hd : decodeWord w = .ok i) (hk : faultOf i s = some k) : StepTo rnd s (s.advance.takeFault k s.pc w)
  /-- The execute stage has its effect (R95). -/
  | runs (hrun : s.runState = .running) {w : Word} {i : Instr} (hf : s.fetchWord = some w)
      (hd : decodeWord w = .ok i) (hq : faultOf i s = none) : StepTo rnd s (effect rnd i s.advance)

/-- All that a `STEP` can do. That the word recorded is the word fetched is that no two words are one instruction. -/
theorem stepTo_of_stepRnd {rnd : Byte} {s t : State} (h : stepRnd rnd s = .next t) : StepTo rnd s t := by
  rcases cycle_cases (withRnd rnd exec) s with ⟨hidle, he⟩ | ⟨hrun, hpc, hf, he⟩ | ⟨w, r, hrun, hf, hd, he⟩ |
    ⟨w, i, hrun, hf, hd, he⟩
  · obtain rfl := Host.Outcome.next.inj (he.symm.trans h)
    exact .idle hidle
  · obtain rfl := Host.Outcome.next.inj (he.symm.trans h)
    exact .unfetchable hrun hf hpc
  · obtain rfl := Host.Outcome.next.inj (he.symm.trans h)
    exact .illegal hrun hf hd
  · have hexec : withRnd rnd exec i s.advance = .next t := he.symm.trans h
    obtain ⟨_, henc⟩ := encodeDecodeRoundTrip w i hd
    cases hq : faultOf i s with
    | some k =>
      have hraise := withRnd_exec_raises rnd ((faultOf_advance i s).trans hq)
      rw [raise_advance, henc] at hraise
      obtain rfl := Host.Outcome.next.inj (hraise.symm.trans hexec)
      exact .raises hrun hf hd hq
    | none =>
      have heffect := withRnd_exec_unfaulted (rnd := rnd) ((faultOf_advance i s).trans hq)
      obtain rfl := Host.Outcome.next.inj (heffect.symm.trans hexec)
      exact .runs hrun hf hd hq

/-- `step` is the `STEP` whose random input is the model's free value (log 2): the two execute stages are one. -/
theorem stepRnd_randomByte (s : State) : stepRnd (Config.randomByte s.draws) s = step s := by
  rcases cycle_cases exec s with ⟨hidle, he⟩ | ⟨hrun, _, hf, he⟩ | ⟨w, r, hrun, hf, hd, he⟩ | ⟨w, i, hrun, hf, hd, he⟩
  · exact (cycle_idle _ hidle).trans he.symm
  · exact (cycle_unfetchable _ hrun hf).trans he.symm
  · exact (cycle_illegal _ hrun hf hd).trans he.symm
  · exact (cycle_ok _ hrun hf hd).trans ((exec_eq_withRnd i s.advance).symm.trans he.symm)

theorem stepTo_of_step {s t : State} (h : step s = .next t) : StepTo (Config.randomByte s.draws) s t :=
  stepTo_of_stepRnd ((stepRnd_randomByte s).trans h)

end Sys2Proof.Machine

/-! # Invariants (`10_state.md` section 12, `60_exceptions.md` section 1)

A step keeps the invariants case by case of `StepTo`: a fault taken, an advance and an effect each keep them. The bound of
`pc` after a return is the bound of the stack entry popped, so the two are kept together. -/

namespace Sys2Proof.Machine

/-! ### A fault, a jump and an effect keep the invariants -/

theorem inv_takeFault {s : State} (h : s.Inv) (hw : s.waiting = none) {k : FaultKind} (hk : k ≠ .none) (a w : Word) :
    (s.takeFault k a w).Inv where
  memory := h.memory
  halted_iff_fault := iff_of_true rfl hk
  empty_record := fun e => absurd e hk
  not_both := by simp [hw]
  pc_bound := h.pc_bound
  stack_bound := h.stack_bound

theorem inv_jump {s : State} (h : s.Inv) {v : Word} (hv : v.toNat ≤ 0x10FE) : (s.jump v).Inv where
  memory := h.memory
  halted_iff_fault := h.halted_iff_fault
  empty_record := h.empty_record
  not_both := h.not_both
  pc_bound := hv
  stack_bound := h.stack_bound

theorem toNat_skipPc_le {s : State} (h : s.pc.toNat ≤ 4096) (c : Bool) : (skipPc s c).toNat ≤ 0x10FE := by
  unfold skipPc
  split <;> bv_omega

/-- The largest `pc` an effect leaves (R24): a popped entry, an address, `x[0]` + NNN, or a skip's target. -/
theorem toNat_effect_pc_le (rnd : Byte) {i : Instr} {s : State} (hpc : s.pc.toNat ≤ 4096) (hq : faultOf i s = none)
    (hstack : ∀ k : Fin 16, k.val < s.sp.val → 2 ≤ s.stack[k].toNat ∧ s.stack[k].toNat ≤ 4096) :
    (effect rnd i s).pc.toNat ≤ 0x10FE := by
  have haddr (nnn : Addr) : (addrWord nnn).toNat ≤ 0x10FE := by
    have := nnn.isLt
    rw [toNat_addrWord]
    omega
  cases i
  case ret =>
    have hsp : s.sp.val ≠ 0 := by simpa [faultOf] using hq
    obtain ⟨_, hle⟩ := hstack ⟨s.sp.val - 1, by omega⟩ (by simp only; omega)
    exact hle.trans (by decide)
  case sys nnn | call nnn | jp nnn => exact haddr nnn
  case jpV0 nnn =>
    have hv := (s.reg 0).isLt
    have hn := nnn.isLt
    refine (toNat_byteWord_add_addrWord (s.reg 0) nnn).le.trans ?_
    omega
  case seImm | sneImm | seReg | sneReg | skp | sknp => exact toNat_skipPc_le hpc _
  all_goals exact hpc.trans (by decide)

/-- The entries a push leaves in use are the old ones and `pc` (R25). -/
theorem pushed_stack {s : State} (hsp : s.sp.val ≠ 16) {k : Fin 16} (hk : k.val < (pushed s).sp.val) :
    (k.val < s.sp.val ∧ (pushed s).stack[k] = s.stack[k]) ∨ (pushed s).stack[k] = s.pc := by
  have hlt : k.val < s.sp.val + 1 := hk.trans_eq (Nat.mod_eq_of_lt (by omega))
  have hget : (pushed s).stack[k] = if s.sp.val = k.val then s.pc else s.stack[k] := Vector.getElem_setIfInBounds k.isLt
  by_cases he : s.sp.val = k.val
  · exact .inr (hget.trans (if_pos he))
  · exact .inl ⟨by omega, hget.trans (if_neg he)⟩

/-- The stack entries in use after an effect are 2..4096 (R25). -/
theorem effect_stack_bound (rnd : Byte) {i : Instr} {s : State} (hlo : 2 ≤ s.pc.toNat) (hhi : s.pc.toNat ≤ 4096)
    (hq : faultOf i s = none)
    (hstack : ∀ k : Fin 16, k.val < s.sp.val → 2 ≤ s.stack[k].toNat ∧ s.stack[k].toNat ≤ 4096) (k : Fin 16)
    (hk : k.val < (effect rnd i s).sp.val) :
    2 ≤ (effect rnd i s).stack[k].toNat ∧ (effect rnd i s).stack[k].toNat ≤ 4096 := by
  cases i
  case ret => exact hstack k (Nat.lt_of_lt_of_le hk (Nat.sub_le ..))
  case sys nnn | call nnn =>
    have hsp : s.sp.val ≠ 16 := by simpa [faultOf] using hq
    show 2 ≤ (pushed s).stack[k].toNat ∧ (pushed s).stack[k].toNat ≤ 4096
    rcases pushed_stack hsp hk with ⟨hold, he⟩ | he <;> rw [he]
    · exact hstack k hold
    · exact ⟨hlo, hhi⟩
  all_goals exact hstack k hk

theorem inv_effect (rnd : Byte) {i : Instr} {s : State} (h : s.Inv) (hhalted : s.halted = false)
    (hlo : 2 ≤ s.pc.toNat) (hhi : s.pc.toNat ≤ 4096) (hq : faultOf i s = none) : (effect rnd i s).Inv :=
  have hquiet := quiet_effect rnd hq
  { memory := hquiet.mem h.memory
    halted_iff_fault := by rw [hquiet.halted, hquiet.fault]; exact h.halted_iff_fault
    empty_record := by rw [hquiet.fault]; exact h.empty_record
    not_both := by rw [hquiet.halted, hhalted]; exact fun hb => nomatch hb.1
    pc_bound := toNat_effect_pc_le rnd hhi hq h.stack_bound
    stack_bound := effect_stack_bound rnd hlo hhi hq h.stack_bound }

/-! ### A step keeps the invariants -/

/-- The advance of a step that fetches leaves `pc` in 2..4096 (R93). -/
theorem advance_pc_bounds {s : State} {w : Word} (hf : s.fetchWord = some w) :
    2 ≤ s.advance.pc.toNat ∧ s.advance.pc.toNat ≤ 4096 := by
  have hpc := pc_le_of_fetchWord hf
  rw [advance_pc, toNat_pc_add_two s hpc]
  omega

theorem inv_advance {s : State} {w : Word} (h : s.Inv) (hf : s.fetchWord = some w) : s.advance.Inv :=
  inv_jump h ((advance_pc_bounds hf).2.trans (by decide))

theorem inv_of_stepTo {rnd : Byte} {s t : State} (h : s.Inv) (hstep : StepTo rnd s t) : t.Inv := by
  cases hstep with
  | idle => exact h
  | unfetchable hrun =>
    exact inv_takeFault h ((runState_running_iff s).1 hrun).2 (k := .outOfBoundsFetch) nofun ..
  | illegal hrun hf =>
    exact inv_takeFault (inv_advance h hf) ((runState_running_iff s).1 hrun).2 (k := .illegalInstruction) nofun ..
  | raises hrun hf _ hk =>
    exact inv_takeFault (inv_advance h hf) ((runState_running_iff s).1 hrun).2
      (fun e => faultOf_ne_none _ _ (hk.trans (congrArg some e))) ..
  | runs hrun hf _ hq =>
    obtain ⟨hlo, hhi⟩ := advance_pc_bounds hf
    exact inv_effect rnd (inv_advance h hf) ((runState_running_iff s).1 hrun).1 hlo hhi ((faultOf_advance ..).trans hq)

/-- Settles O16: `inv_of_stepTo`, for the random input that `step` draws. -/
theorem stepKeepsInvariant : Obligations.StepKeepsInvariant := by
  unfold Obligations.StepKeepsInvariant
  exact fun s t h hstep => inv_of_stepTo h (stepTo_of_step hstep)

/-! ### Every event keeps the invariants -/

theorem inv_setKey {s : State} (h : s.Inv) (id : Nat) (v : Bool) : (s.setKey id v).Inv :=
  ⟨h.memory, h.halted_iff_fault, h.empty_record, h.not_both, h.pc_bound, h.stack_bound⟩

theorem inv_tick {s : State} (h : s.Inv) : s.tick.Inv :=
  ⟨h.memory, h.halted_iff_fault, h.empty_record, h.not_both, h.pc_bound, h.stack_bound⟩

theorem inv_lift {s : State} (h : s.Inv) (id : Nat) : (s.lift id).Inv := by
  rcases lift_cases id s with ⟨_, he⟩ | ⟨_, _, he⟩ | ⟨r, _, _, he⟩ <;> rw [he]
  · exact h
  · exact inv_setKey h id false
  · exact ⟨h.memory, h.halted_iff_fault, h.empty_record, (fun hb => nomatch hb.2), h.pc_bound, h.stack_bound⟩

theorem inv_setLoadResult {s : State} (h : s.Inv) (r : Option LoadResult) : ({ s with loadResult := r } : State).Inv :=
  ⟨h.memory, h.halted_iff_fault, h.empty_record, h.not_both, h.pc_bound, h.stack_bound⟩

theorem inv_load {s t : State} {bs : List Byte} (h : s.Inv) (hload : s.load bs = .next t) : t.Inv := by
  rcases load_cases bs s with ⟨hlen, he⟩ | ⟨_, he⟩ <;> obtain rfl := Host.Outcome.next.inj (he.symm.trans hload)
  · have hmem : ({ s with mem := s.mem.writeBytes 0x200 bs } : State).Inv :=
      ⟨Memory.wf_writeBytes h.memory bs (.inr (by omega)), h.halted_iff_fault, h.empty_record, h.not_both, h.pc_bound,
        h.stack_bound⟩
    exact inv_setLoadResult (inv_jump hmem (by decide)) _
  · exact inv_setLoadResult h _

/-- The invariants say nothing of the draw counter, so this is `RESET` as well as power-on. -/
theorem inv_reset (n : Nat) : ({ State.reset with draws := n } : State).Inv where
  memory := ⟨.nil, nofun⟩
  halted_iff_fault := by simp [State.reset, FaultRecord.empty]
  empty_record := fun _ => rfl
  not_both := nofun
  pc_bound := by simp [State.reset]
  stack_bound := nofun

/-- Settles O17: the step is the case of `inv_of_stepTo`, and each other event has its lemma. -/
theorem eventsKeepInvariant : Obligations.EventsKeepInvariant := by
  unfold Obligations.EventsKeepInvariant
  intro e s t h hd
  cases e with
  | step rnd => exact inv_of_stepTo h (stepTo_of_stepRnd hd)
  | tick =>
    obtain rfl := Host.Outcome.next.inj hd
    exact inv_tick h
  | press id =>
    obtain rfl := Host.Outcome.next.inj hd
    exact inv_setKey h id true
  | lift id =>
    obtain rfl := Host.Outcome.next.inj hd
    exact inv_lift h id
  | load bs => exact inv_load h hd
  | reset =>
    obtain rfl := Host.Outcome.next.inj hd
    exact inv_reset s.draws

/-! ### The fault record goes on explaining the halt (R200, R208) -/

theorem faultExplained_of_no_fault {s : State} (h : s.fault.kind = .none) : s.FaultExplained := by
  simp only [State.FaultExplained, h]

/-- The explanation speaks of `fault`, `sp` and `I` only. -/
theorem faultExplained_congr {s t : State} (hfault : t.fault = s.fault) (hsp : t.sp = s.sp) (hI : t.I = s.I)
    (h : s.FaultExplained) : t.FaultExplained := by
  rw [State.FaultExplained, hfault, hsp, hI]
  exact h

/-- A fault raised by an execute stage is explained by the word that was fetched. -/
theorem faultExplained_raise {s : State} {w : Word} {i : Instr} {k : FaultKind} (hf : s.fetchWord = some w)
    (hd : decodeWord w = .ok i) (hk : faultOf i s = some k) : (s.advance.takeFault k s.pc w).FaultExplained := by
  have hpc : s.pc.toNat < 4095 := Nat.lt_succ_of_le (pc_le_of_fetchWord hf)
  rcases (faultOf_eq_some_iff i s k).1 hk with ⟨rfl, rfl, hsp⟩ | ⟨rfl, ⟨nnn, rfl | rfl⟩, hsp⟩ | ⟨rfl, hpast⟩
  · exact ⟨hpc, hsp, (encodeDecodeRoundTrip w .ret hd).2.symm⟩
  · exact ⟨hpc, hsp, nnn, .inl hd⟩
  · exact ⟨hpc, hsp, nnn, .inr hd⟩
  · rcases hpast with ⟨x, rfl, hI⟩ | ⟨x, rfl | rfl, hI⟩ | ⟨x, y, n, rfl, hn, hI⟩
    · exact ⟨hpc, .inl ⟨x, hd, hI⟩⟩
    · exact ⟨hpc, .inr (.inl ⟨x, .inl hd, hI⟩)⟩
    · exact ⟨hpc, .inr (.inl ⟨x, .inr hd, hI⟩)⟩
    · exact ⟨hpc, .inr (.inr ⟨x, y, n, hd, hn, hI⟩)⟩

/-- A Running machine has no fault recorded (R33). -/
theorem fault_kind_of_running {s : State} (h : s.Inv) (hrun : s.runState = .running) : s.fault.kind = .none := by
  by_contra hk
  cases ((runState_running_iff s).1 hrun).1.symm.trans (h.halted_iff_fault.2 hk)

theorem faultExplained_of_stepTo {rnd : Byte} {s t : State} (h : s.Inv) (hs : s.FaultExplained)
    (hstep : StepTo rnd s t) : t.FaultExplained := by
  cases hstep with
  | idle => exact hs
  | unfetchable _ _ hpc => exact ⟨hpc, rfl⟩
  | illegal _ hf hd => exact ⟨Nat.lt_succ_of_le (pc_le_of_fetchWord hf), _, hd⟩
  | raises _ hf hd hk => exact faultExplained_raise hf hd hk
  | runs hrun _ _ hq =>
    have hquiet := quiet_effect rnd ((faultOf_advance ..).trans hq)
    have hkind := fault_kind_of_running h hrun
    exact faultExplained_of_no_fault ((congrArg FaultRecord.kind hquiet.fault).trans hkind)

/-- A release of a key writes the latch, and a wait's register and `waiting`. -/
theorem lift_fault_sp_I (id : Nat) (s : State) :
    (s.lift id).fault = s.fault ∧ (s.lift id).sp = s.sp ∧ (s.lift id).I = s.I := by
  rcases lift_cases id s with ⟨_, he⟩ | ⟨_, _, he⟩ | ⟨r, _, _, he⟩ <;> rw [he] <;> exact ⟨rfl, rfl, rfl⟩

/-- A `LOAD` writes memory, `pc` and its result. -/
theorem load_fault_sp_I {bs : List Byte} {s t : State} (h : s.load bs = .next t) :
    t.fault = s.fault ∧ t.sp = s.sp ∧ t.I = s.I := by
  rcases load_cases bs s with ⟨_, he⟩ | ⟨_, he⟩ <;> obtain rfl := Host.Outcome.next.inj (he.symm.trans h) <;>
    exact ⟨rfl, rfl, rfl⟩

/-- Settles O18: a `STEP` is explained case by case, a `RESET` leaves no fault, and the other events leave alone what the
explanation speaks of. -/
theorem eventsKeepFaultExplained : Obligations.EventsKeepFaultExplained := by
  unfold Obligations.EventsKeepFaultExplained
  intro e s t h hs hd
  cases e with
  | step rnd => exact faultExplained_of_stepTo h hs (stepTo_of_stepRnd hd)
  | tick | press id =>
    obtain rfl := Host.Outcome.next.inj hd
    exact faultExplained_congr rfl rfl rfl hs
  | lift id =>
    obtain rfl := Host.Outcome.next.inj hd
    obtain ⟨hfault, hsp, hI⟩ := lift_fault_sp_I id s
    exact faultExplained_congr hfault hsp hI hs
  | load bs =>
    obtain ⟨hfault, hsp, hI⟩ := load_fault_sp_I hd
    exact faultExplained_congr hfault hsp hI hs
  | reset =>
    obtain rfl := Host.Outcome.next.inj hd
    exact faultExplained_of_no_fault rfl

/-! ### Every reachable state -/

/-- Settles O15. -/
theorem resetMeetsInvariant : Obligations.ResetMeetsInvariant := by
  unfold Obligations.ResetMeetsInvariant
  exact ⟨inv_reset 0, faultExplained_of_no_fault rfl⟩

/-- No event stops the model. -/
theorem deliver_next (e : Event) (s : State) : ∃ t, deliver e s = .next t := by
  cases e with
  | step rnd => exact cycle_next (withRnd_exec_next rnd) s
  | load bs => rcases load_cases bs s with ⟨_, he⟩ | ⟨_, he⟩ <;> exact ⟨_, he⟩
  | tick | press id | lift id | reset => exact ⟨_, rfl⟩

/-- What holds of a state and is kept by each event of a sequence holds after the sequence, which is carried out. -/
theorem deliverAll_keeps {P : State → Prop} {es : List Event}
    (hkeep : ∀ e ∈ es, ∀ s t, P s → deliver e s = .next t → P t) {s : State} (hs : P s) :
    ∃ t, deliverAll es s = .next t ∧ P t := by
  induction es generalizing s with
  | nil => exact ⟨s, rfl, hs⟩
  | cons e es ih =>
    obtain ⟨hfirst, hrest⟩ := List.forall_mem_cons.1 hkeep
    obtain ⟨u, hu⟩ := deliver_next e s
    obtain ⟨t, ht, hPt⟩ := ih hrest (hfirst s u hs hu)
    exact ⟨t, (deliverAll_cons es hu).trans ht, hPt⟩

/-- Settles O19: the invariants and the explanation hold at reset, and every event keeps the two together. -/
theorem everyReachableStateIsSound : Obligations.EveryReachableStateIsSound := by
  unfold Obligations.EveryReachableStateIsSound
  intro es
  refine deliverAll_keeps (P := fun s => s.Inv ∧ s.FaultExplained) ?_ resetMeetsInvariant
  rintro e _ s t ⟨hinv, hexp⟩ hd
  exact ⟨eventsKeepInvariant e s t hinv hd, eventsKeepFaultExplained e s t hinv hexp hd⟩

end Sys2Proof.Machine

/-! # Steps that halt, the random input and a placed word (`40_step_cycle.md`, `60_exceptions.md` sections 1 and 2) -/

namespace Sys2Proof.Machine

/-! ### A step that halts (R96, R207) -/

theorem changesOnly_advance_takeFault (s : State) (k : FaultKind) (a w : Word) :
    ChangesOnly s (s.advance.takeFault k a w) (fun p => p = .halted ∨ p = .fault ∨ p = .pc) :=
  ((changesOnly_advance s).weaken fun _ e => .inr (.inr e)).trans
    ((changesOnly_takeFault ..).weaken fun _ e => e.imp_right .inl)

/-- Settles O11. -/
theorem illegalWordHalts : Obligations.IllegalWordHalts := by
  unfold Obligations.IllegalWordHalts
  intro s w r hrun hf hd
  exact ⟨_, cycle_illegal exec hrun hf hd, rfl, rfl, rfl, changesOnly_advance_takeFault ..⟩

/-- Settles O12: of the five cases of a step, three take a fault, and the other two do not halt a Running machine. -/
theorem fatalFaultsArePrecise : Obligations.FatalFaultsArePrecise := by
  unfold Obligations.FatalFaultsArePrecise
  intro s t hrun h ht
  cases stepTo_of_step h with
  | idle hidle => exact absurd hrun hidle
  | unfetchable =>
    exact ⟨.outOfBoundsFetch, 0, nofun, rfl, .inl ⟨rfl, rfl, rfl⟩,
      (changesOnly_takeFault ..).weaken fun _ e => e.imp_right .inl⟩
  | illegal _ hf hd =>
    exact ⟨.illegalInstruction, _, nofun, rfl, .inr ⟨nofun, hf, rfl⟩, changesOnly_advance_takeFault ..⟩
  | @raises _ w i k hf hd hk =>
    have hnone := faultOf_ne_none i s
    have hfetch := faultOf_ne_outOfBoundsFetch i s
    rw [hk, Ne, Option.some.injEq] at hnone hfetch
    exact ⟨_, _, hnone, rfl, .inr ⟨hfetch, hf, rfl⟩, changesOnly_advance_takeFault ..⟩
  | runs _ _ _ hq =>
    have hsame := (quiet_effect (Config.randomByte s.draws) ((faultOf_advance _ s).trans hq)).halted
    cases ((runState_running_iff s).1 hrun).1.symm.trans (hsame.symm.trans ht)

/-! ### Which fault a step raises (R200) -/

/-- The fault a step of a Running machine raises, if any. -/
def stepFault (s : State) : Option FaultKind :=
  match s.fetchWord with
  | none => some .outOfBoundsFetch
  | some w =>
    match decodeWord w with
    | .error _ => some .illegalInstruction
    | .ok i => faultOf i s

/-- `stepFault` is what a step records. -/
theorem halted_kind_iff_stepFault {rnd : Byte} {s t : State} (hrun : s.runState = .running) (h : StepTo rnd s t)
    (k : FaultKind) : t.halted = true ∧ t.fault.kind = k ↔ stepFault s = some k := by
  cases h with
  | idle hidle => exact absurd hrun hidle
  | unfetchable _ hf => simp [stepFault, hf]
  | illegal _ hf hd => simp [stepFault, hf, hd]
  | raises _ hf hd hk => simp [stepFault, hf, hd, hk]
  | runs _ hf hd hq =>
    have hsame := (quiet_effect rnd ((faultOf_advance _ s).trans hq)).halted
    simp [stepFault, hf, hd, hq, hsame, ((runState_running_iff s).1 hrun).1]

/-- The fault of a step is that of the fetch, that of decoding, or one of the execute stage. -/
theorem stepFault_eq_some_iff (s : State) (k : FaultKind) :
    stepFault s = some k ↔
      (k = .outOfBoundsFetch ∧ 4095 ≤ s.pc.toNat) ∨
      (k = .illegalInstruction ∧ ∃ w r, s.fetchWord = some w ∧ decodeWord w = .error r) ∨
      ∃ w i, s.fetchWord = some w ∧ decodeWord w = .ok i ∧ faultOf i s = some k := by
  cases hf : s.fetchWord with
  | none =>
    have hpc : 4095 ≤ s.pc.toNat := by
      by_contra hlt
      cases (fetchWord_eq s (by omega)).symm.trans hf
    simp [stepFault, hf, hpc, eq_comm]
  | some w =>
    have hpc : ¬ 4095 ≤ s.pc.toNat := by
      have := pc_le_of_fetchWord hf
      omega
    cases hd : decodeWord w with
    | error r => simp [stepFault, hf, hd, hpc, eq_comm]
    | ok i => simp [stepFault, hf, hd, hpc]

theorem stepFault_ne_none (s : State) : stepFault s ≠ some .none := by
  rw [Ne, stepFault_eq_some_iff]
  rintro (⟨h, _⟩ | ⟨h, _⟩ | ⟨_, i, _, _, h⟩)
  · cases h
  · cases h
  · exact faultOf_ne_none i s h

/-- Settles O13: each kind picks its case of `stepFault_eq_some_iff`, and of `faultOf_eq_some_iff` under it. -/
theorem faultsArisenExactlyWhenListed : Obligations.FaultsArisenExactlyWhenListed := by
  unfold Obligations.FaultsArisenExactlyWhenListed
  intro s t hrun h
  have hkind := halted_kind_iff_stepFault hrun (stepTo_of_step h)
  refine ⟨(hkind _).trans ?fetch, (hkind _).trans ?overflow, (hkind _).trans ?underflow, (hkind _).trans ?illegal,
    (hkind _).trans ?index, fun ht hnone => stepFault_ne_none s ((hkind _).1 ⟨ht, hnone⟩)⟩
  all_goals
    simp only [stepFault_eq_some_iff, faultOf_eq_some_iff, reduceCtorEq, false_and, true_and, and_false, false_or,
      or_false, exists_false]
  case overflow =>
    constructor
    · rintro ⟨w, _, hf, hd, ⟨nnn, rfl | rfl⟩, hsp⟩
      · exact ⟨w, nnn, hf, .inl hd, hsp⟩
      · exact ⟨w, nnn, hf, .inr hd, hsp⟩
    · rintro ⟨w, nnn, hf, hd | hd, hsp⟩
      · exact ⟨w, _, hf, hd, ⟨nnn, .inl rfl⟩, hsp⟩
      · exact ⟨w, _, hf, hd, ⟨nnn, .inr rfl⟩, hsp⟩
  case underflow =>
    constructor
    · rintro ⟨w, _, hf, hd, rfl, hsp⟩
      exact ⟨hf.trans (congrArg some (encodeDecodeRoundTrip w .ret hd).2.symm), hsp⟩
    · rintro ⟨hf, hsp⟩
      exact ⟨_, .ret, hf, rfl, rfl, hsp⟩
  case index =>
    constructor
    · rintro ⟨w, _, hf, hd, ⟨x, rfl, hI⟩ | ⟨x, rfl | rfl, hI⟩ | ⟨x, y, n, rfl, hn, hI⟩⟩
      · exact ⟨w, hf, .inl ⟨x, hd, hI⟩⟩
      · exact ⟨w, hf, .inr (.inl ⟨x, .inl hd, hI⟩)⟩
      · exact ⟨w, hf, .inr (.inl ⟨x, .inr hd, hI⟩)⟩
      · exact ⟨w, hf, .inr (.inr ⟨x, y, n, hd, hn, hI⟩)⟩
    · rintro ⟨w, hf, ⟨x, hd, hI⟩ | ⟨x, hd | hd, hI⟩ | ⟨x, y, n, hd, hn, hI⟩⟩
      · exact ⟨w, _, hf, hd, .inl ⟨x, rfl, hI⟩⟩
      · exact ⟨w, _, hf, hd, .inr (.inl ⟨x, .inl rfl, hI⟩)⟩
      · exact ⟨w, _, hf, hd, .inr (.inl ⟨x, .inr rfl, hI⟩)⟩
      · exact ⟨w, _, hf, hd, .inr (.inr ⟨x, y, n, rfl, hn, hI⟩)⟩

/-! ### The random input (R99) -/

/-- A step that does not fetch a word `CXNN` does not read its random input. -/
theorem stepRnd_eq_step {s : State} (rnd : Byte)
    (hw : ∀ w x nn, s.fetchWord = some w → decodeWord w ≠ .ok (.rnd x nn)) : stepRnd rnd s = step s := by
  rcases cycle_cases exec s with ⟨hidle, he⟩ | ⟨hrun, _, hf, he⟩ | ⟨w, r, hrun, hf, hd, he⟩ | ⟨w, i, hrun, hf, hd, he⟩
  · exact (cycle_idle _ hidle).trans he.symm
  · exact (cycle_unfetchable _ hrun hf).trans he.symm
  · exact (cycle_illegal _ hrun hf hd).trans he.symm
  · rcases withRnd_cases rnd i s.advance with ⟨x, nn, rfl, _⟩ | ⟨_, hsame⟩
    · exact absurd hd (hw w x nn hf)
    · exact (cycle_ok _ hrun hf hd).trans (hsame.trans he.symm)

theorem changesOnly_setDraws (s : State) (n : Nat) : ChangesOnly s { s with draws := n } (fun p => p = .draws) := by
  refine ⟨fun p hp => ?_⟩
  cases p <;> try rfl
  case draws => exact absurd rfl hp

/-- All that the execute stage of `CXNN` does with the random byte `rnd` (R131). -/
theorem rndWith_masks (rnd : Byte) (x : RegIdx) (nn : Byte) (s : State) :
    ∃ t, rndWith rnd x nn s = .next t ∧ t.reg x = rnd &&& nn ∧ t.pc = s.pc ∧ t.draws = s.draws + 1 ∧
      ChangesOnly s t (fun p => p = .reg x ∨ p = .draws) :=
  ⟨_, rfl, reg_setReg_self .., rfl, rfl, ((changesOnly_setReg ..).weaken fun _ => .inl).trans
    ((changesOnly_setDraws ..).weaken fun _ => .inr)⟩

/-- Settles O14. -/
theorem randomInputMattersToRndOnly : Obligations.RandomInputMattersToRndOnly := by
  unfold Obligations.RandomInputMattersToRndOnly
  intro s rnd
  refine ⟨stepRnd_randomByte s, stepRnd_eq_step rnd, fun w hrun hf hmask => ?_⟩
  obtain ⟨t, ht, hreg, hpc, _, hframe⟩ := rndWith_masks rnd (fieldX w) (fieldNN w) s.advance
  refine ⟨t, (cycle_ok _ hrun hf (decodeWord_opC (op_of_mask w 0xC000 hmask))).trans ht, hreg, hpc, ?_⟩
  exact ((changesOnly_advance s).weaken fun _ e => .inr (.inl e)).trans (hframe.weaken fun _ e => e.imp_right .inr)

/-- Settles O41: a value whose 1 bits are among those of NN is its own AND with NN. -/
theorem randomByteIsMasked : Obligations.RandomByteIsMasked := by
  unfold Obligations.RandomByteIsMasked
  intro x nn s
  refine ⟨?free, fun rnd => ?given, fun v => ⟨fun hv => ?reached, ?masked⟩⟩
  case free =>
    obtain ⟨t, ht, hreg, _, hdraws, hframe⟩ := rndWith_masks (Config.randomByte s.draws) x nn s
    exact ⟨t, ht, hreg, hdraws, hframe⟩
  case given =>
    obtain ⟨t, ht, hreg, _, _, hframe⟩ := rndWith_masks rnd x nn s
    exact ⟨t, ht, hreg, hframe⟩
  case reached =>
    obtain ⟨t, ht, hreg, _⟩ := rndWith_masks v x nn s
    refine ⟨v, t, ht, hreg.trans (BitVec.eq_of_getLsbD_eq fun b _ => ?_)⟩
    rw [BitVec.getLsbD_and, Bool.and_eq_left_iff_imp]
    exact hv b
  case masked =>
    rintro ⟨rnd, t, ht, rfl⟩ b hb
    obtain ⟨t', ht', hreg, _⟩ := rndWith_masks rnd x nn s
    obtain rfl := Host.Outcome.next.inj (ht.symm.trans ht')
    rw [hreg, BitVec.getLsbD_and, Bool.and_eq_true] at hb
    exact hb.2

/-! ### A word placed at `pc` (log 8) -/

/-- A placed word is what the next step fetches, in the Running state. -/
theorem withFetchWord_running_fetches (s : State) (nbits w : Nat) :
    (s.withFetchWord nbits w).runState = .running ∧ (s.withFetchWord nbits w).fetchWord = some (tableWord nbits w) :=
  ⟨(madeFetchable_runState _).trans (madeRunning_running s), fetchWord_placeWord _ _ (madeFetchable_fetchable _)⟩

/-- From a Running machine whose `pc` can be fetched from, the placing only writes the word. -/
theorem withFetchWord_eq_placeWord {s : State} (nbits w : Nat) (hrun : s.runState = .running) (hpc : s.pc.toNat ≤ 4094) :
    s.withFetchWord nbits w = s.placeWord (tableWord nbits w) := by
  have hfetchable : s.pc.toNat + 1 < Config.memSize := Nat.lt_of_le_of_lt (Nat.succ_le_succ hpc) (by decide)
  rw [State.withFetchWord, State.madeRunning, if_pos hrun, State.madeFetchable, if_pos hfetchable]

theorem changesOnly_placeWord (s : State) (w : Word) :
    ChangesOnly s (s.placeWord w) (fun p => p = .byte s.pc.toNat ∨ p = .byte (s.pc.toNat + 1)) := by
  refine (changesOnly_writeBytes s s.pc.toNat (bytesOfWord w)).weaken ?_
  rintro p ⟨k, hk, rfl⟩
  match k, hk with
  | 0, _ => exact .inl rfl
  | 1, _ => exact .inr rfl

/-- Settles O7. -/
theorem placedWordRunsNext : Obligations.PlacedWordRunsNext := by
  unfold Obligations.PlacedWordRunsNext
  intro s w i hd
  obtain ⟨hrun, hf⟩ := withFetchWord_running_fetches s 16 w
  refine ⟨cycle_ok exec hrun hf ((decodeTableWord_eq_some_iff 16 w i).1 hd), fun hs hpc => ?_⟩
  rw [withFetchWord_eq_placeWord 16 w hs hpc]
  exact changesOnly_placeWord ..

end Sys2Proof.Machine

/-! # The host's events and outputs (`10_state.md` section 13, `60_exceptions.md`, `70_reset_and_hazards.md`) -/

namespace Sys2Proof.Machine

/-! ### Who leaves Halted, and who ends a wait (R211, R214) -/

/-- A release leaves `halted` alone. -/
theorem lift_halted (id : Nat) (s : State) : (s.lift id).halted = s.halted := by
  rcases lift_cases id s with ⟨_, he⟩ | ⟨_, _, he⟩ | ⟨r, _, _, he⟩ <;> rw [he] <;> rfl

theorem lift_of_unrecognized {id : Nat} (s : State) (h : 15 < id) : s.lift id = s := by
  rcases lift_cases id s with ⟨_, he⟩ | ⟨hid, _⟩ | ⟨_, hid, _⟩
  · exact he
  · omega
  · omega

/-- A `LOAD` leaves `halted` and `waiting` alone (R245). -/
theorem load_halted_waiting {bs : List Byte} {s t : State} (h : s.load bs = .next t) :
    t.halted = s.halted ∧ t.waiting = s.waiting := by
  rcases load_cases bs s with ⟨_, he⟩ | ⟨_, he⟩ <;> obtain rfl := Host.Outcome.next.inj (he.symm.trans h) <;>
    exact ⟨rfl, rfl⟩

/-- Outside the Running state a `STEP` is the identity (R90). -/
theorem stepRnd_idle {rnd : Byte} {s t : State} (hidle : s.runState ≠ .running) (h : stepRnd rnd s = .next t) : t = s :=
  Host.Outcome.next.inj (h.symm.trans (cycle_idle _ hidle))

/-- A halted machine stays so, with its record, through every event but `RESET`. -/
theorem deliver_halted {e : Event} {s t : State} (h : deliver e s = .next t) (hs : s.halted = true) (hne : e ≠ .reset) :
    t.halted = true ∧ t.fault = s.fault := by
  cases e with
  | step rnd =>
    have hidle : s.runState ≠ .running := fun hrun => nomatch hs.symm.trans ((runState_running_iff s).1 hrun).1
    obtain rfl := stepRnd_idle hidle h
    exact ⟨hs, rfl⟩
  | tick | press id =>
    obtain rfl := Host.Outcome.next.inj h
    exact ⟨hs, rfl⟩
  | lift id =>
    obtain rfl := Host.Outcome.next.inj h
    exact ⟨(lift_halted id s).trans hs, (lift_fault_sp_I id s).1⟩
  | load bs => exact ⟨(load_halted_waiting h).1.trans hs, (load_fault_sp_I h).1⟩
  | reset => exact absurd rfl hne

/-- A wait goes on through every event but `RESET` and the release of a recognized key. -/
theorem deliver_waiting {e : Event} {s t : State} {r : RegIdx} (h : deliver e s = .next t) (hw : s.waiting = some r)
    (hreset : e ≠ .reset) (hlift : ∀ id, id ≤ 15 → e ≠ .lift id) : t.waiting = some r := by
  cases e with
  | step rnd =>
    have hidle : s.runState ≠ .running := fun hrun => nomatch hw.symm.trans ((runState_running_iff s).1 hrun).2
    obtain rfl := stepRnd_idle hidle h
    exact hw
  | tick | press id =>
    obtain rfl := Host.Outcome.next.inj h
    exact hw
  | lift id =>
    have hid : 15 < id := Nat.lt_of_not_le fun hle => hlift id hle rfl
    obtain rfl := Host.Outcome.next.inj h
    rwa [lift_of_unrecognized s hid]
  | load bs => exact (load_halted_waiting h).2.trans hw
  | reset => exact absurd rfl hreset

/-- Settles O21. -/
theorem onlyResetLeavesHalted : Obligations.OnlyResetLeavesHalted := by
  unfold Obligations.OnlyResetLeavesHalted
  refine fun e s t h => ⟨deliver_halted h, fun r hw hended => ?_⟩
  by_contra hno
  obtain ⟨hreset, hlift⟩ := not_or.1 hno
  exact hended (deliver_waiting h hw hreset fun id hid he => hlift ⟨id, hid, he⟩)

/-! ### `LOAD`, `PRESS` and `LIFT` -/

/-- Settles O23. -/
theorem loadPlacesImage : Obligations.LoadPlacesImage := by
  unfold Obligations.LoadPlacesImage
  intro bytes s hlen
  rcases load_cases bytes s with ⟨_, he⟩ | ⟨hlong, _⟩
  · refine ⟨_, he, fun k hk => Memory.read_writeBytes_add s.mem 0x200 bytes hk, rfl, rfl, ?_⟩
    have himage := (changesOnly_writeBytes s 0x200 bytes).weaken
      (Q := fun p => p = .pc ∨ p = .loadResult ∨ ∃ k, k < bytes.length ∧ p = .byte (0x200 + k)) fun _ e => .inr (.inr e)
    exact (himage.trans ((changesOnly_jump ..).weaken fun _ => .inl)).trans
      ((changesOnly_setLoadResult ..).weaken fun _ e => .inr (.inl e))
  · omega

/-- Settles O26. -/
theorem pressSetsLatch : Obligations.PressSetsLatch := by
  unfold Obligations.PressSetsLatch
  exact fun id s => ⟨_, rfl, getElem_setKey_self s id true, changesOnly_setKey ..⟩

theorem changesOnly_setWaiting (s : State) (w : Option RegIdx) :
    ChangesOnly s { s with waiting := w } (fun p => p = .waiting) := by
  refine ⟨fun p hp => ?_⟩
  cases p <;> try rfl
  case waiting => exact absurd rfl hp

/-- The release of a recognized key writes its latch bit, `waiting`, and the register that waited (R217, R218). -/
theorem changesOnly_lift (id : Nat) (s : State) :
    ChangesOnly s (s.lift id) (fun p => (∃ k : Fin 16, k.val = id ∧ p = .key k) ∨ p = .waiting ∨
      ∃ r, s.waiting = some r ∧ p = .reg r) := by
  have hlatch := changesOnly_setKey s id false
  rcases lift_cases id s with ⟨_, he⟩ | ⟨_, _, he⟩ | ⟨r, _, hr, he⟩ <;> rw [he]
  · exact .refl ..
  · exact hlatch.weaken fun _ => .inl
  · exact ((hlatch.weaken fun _ => .inl).trans
      ((changesOnly_setReg ..).weaken fun _ e => .inr (.inr ⟨r, hr, e⟩))).trans
      ((changesOnly_setWaiting ..).weaken fun _ e => .inr (.inl e))

/-- After the release of a recognized key its latch bit is clear and no wait is pending. -/
theorem lift_key_waiting {id : Nat} (s : State) (hid : id ≤ 15) :
    (∀ k : Fin 16, k.val = id → (s.lift id).key[k] = false) ∧ (s.lift id).waiting = none := by
  have hlatch := getElem_setKey_self s id false
  rcases lift_cases id s with ⟨hgt, _⟩ | ⟨_, hw, he⟩ | ⟨r, _, _, he⟩
  · omega
  · rw [he]
    exact ⟨hlatch, hw⟩
  · rw [he]
    exact ⟨hlatch, rfl⟩

/-- Settles O27. -/
theorem liftResolvesWait : Obligations.LiftResolvesWait := by
  unfold Obligations.LiftResolvesWait
  refine fun id s => ⟨fun hid => congrArg _ (lift_of_unrecognized s hid), fun hid => ?_⟩
  obtain ⟨hlatch, hwaiting⟩ := lift_key_waiting s hid
  exact ⟨_, rfl, hlatch, hwaiting, fun r hw => (lift_resolves hw hid).1, changesOnly_lift id s⟩

/-! ### The outputs (R38) -/

/-- Bit by bit, a fold of ORs is the OR of its terms. -/
theorem getLsbD_foldl_or {α : Type} {n : Nat} (f : α → BitVec n) (l : List α) (acc : BitVec n) (b : Nat) :
    (l.foldl (fun acc a => acc ||| f a) acc).getLsbD b = (acc.getLsbD b || l.any fun a => (f a).getLsbD b) := by
  induction l generalizing acc with
  | nil => simp
  | cons a l ih => rw [List.foldl_cons, ih, BitVec.getLsbD_or, List.any_cons, Bool.or_assoc]

/-- A row of 64 bits shifted to row `y'` of the flat vector shows at bit `y` × 64 + `x` only if it is row `y`. -/
theorem getLsbD_flatRow (v : BitVec 64) (x : Fin 64) (y y' : Fin 32) :
    (BitVec.setWidth 2048 v <<< (64 * y'.val)).getLsbD (y.val * 64 + x.val) = (decide (y' = y) && v.getLsbD x) := by
  have hin : y.val * 64 + x.val < 2048 := by omega
  rw [BitVec.getLsbD_shiftLeft, BitVec.getLsbD_setWidth]
  rcases lt_trichotomy y.val y'.val with h | h | h
  · simp [show y.val * 64 + x.val < 64 * y'.val by omega, Fin.ext_iff, h.ne']
  · obtain rfl := Fin.ext h
    simp [hin, show ¬ y.val * 64 + x.val < 64 * y.val by omega, show y.val * 64 + x.val - 64 * y.val = x.val by omega]
    omega
  · have hout : v.getLsbD (y.val * 64 + x.val - 64 * y'.val) = false := BitVec.getLsbD_of_ge _ _ (by omega)
    simp [hout, Fin.ext_iff, h.ne]

/-- The flat layout (D19, log 25). -/
theorem getLsbD_flat (fb : Framebuffer) (x : Fin 64) (y : Fin 32) :
    fb.flat.getLsbD (y.val * 64 + x.val) = fb.pixel x y := by
  have hzero : (0 : BitVec 2048).getLsbD (y.val * 64 + x.val) = false := BitVec.getLsbD_zero
  rw [Framebuffer.flat, getLsbD_foldl_or, hzero, Bool.false_or, Bool.eq_iff_iff, List.any_eq_true]
  simp only [getLsbD_flatRow, Bool.and_eq_true, decide_eq_true_eq]
  constructor
  · rintro ⟨_, _, rfl, hbit⟩
    exact hbit
  · exact fun hbit => ⟨y, List.mem_finRange y, rfl, hbit⟩

/-- Settles O29. -/
theorem outputsShowState : Obligations.OutputsShowState := by
  unfold Obligations.OutputsShowState
  exact fun s => ⟨getLsbD_flat s.fb, rfl, rfl, tone_eq_true_iff s, rfl, rfl, rfl, rfl⟩

/-! ### The key wait (`45_timers_keys.md` section 3) -/

/-- What a wait of register `x` keeps through ticks, presses and steps. -/
def Awaits (x : RegIdx) (v : Byte) (a : Word) (s : State) : Prop := s.waiting = some x ∧ s.reg x = v ∧ s.pc = a

theorem awaits_deliver {x : RegIdx} {v : Byte} {a : Word} {e : Event} {s t : State} (hs : Awaits x v a s)
    (h : deliver e s = .next t) (he : e = .tick ∨ (∃ k, e = .press k) ∨ ∃ rnd, e = .step rnd) : Awaits x v a t := by
  obtain rfl | ⟨k, rfl⟩ | ⟨rnd, rfl⟩ := he
  · obtain rfl := Host.Outcome.next.inj h
    exact hs
  · obtain rfl := Host.Outcome.next.inj h
    exact hs
  · obtain ⟨hw, hreg, hpc⟩ := hs
    have hidle : s.runState ≠ .running := fun hrun => nomatch hw.symm.trans ((runState_running_iff s).1 hrun).2
    obtain rfl := stepRnd_idle hidle h
    exact ⟨hw, hreg, hpc⟩

/-- Settles O52: the wait is kept event by event, and the release that ends it is that of `lift_resolves`. -/
theorem keyWait : Obligations.KeyWait := by
  unfold Obligations.KeyWait
  intro x s hs
  refine ⟨{ s with waiting := some x }, rfl, rfl, changesOnly_setWaiting .., cycle_idle _ ?_, fun es id hes hid => ?_⟩
  · exact fun hrun => nomatch ((runState_running_iff _).1 hrun).2
  · have hkeep : ∀ e ∈ es, ∀ u v, Awaits x (s.reg x) s.pc u → deliver e u = .next v → Awaits x (s.reg x) s.pc v :=
      fun e he u v hu h => awaits_deliver hu h (hes e he)
    obtain ⟨u, hrun, hw, hreg, hpc⟩ := deliverAll_keeps hkeep (s := { s with waiting := some x }) ⟨rfl, rfl, rfl⟩
    obtain ⟨hlifted, hnone⟩ := lift_resolves hw hid
    have hsame : (u.lift id).pc = u.pc := (changesOnly_lift id u).agree .pc (by simp)
    exact ⟨u, _, hrun, hw, hreg, hpc, rfl, hnone, hlifted, hsame.trans hpc⟩

end Sys2Proof.Machine

/-! # Calls by `0NNN`, a call and its return, and key skips (`41_control_flow.md`, `45_timers_keys.md` section 2) -/

namespace Sys2Proof.Machine

theorem exec_sys (nnn : Addr) (s : State) : exec (.sys nnn) s = callTo (.sys nnn) nnn s := rfl

/-- Below a full stack the word that asks for a call does not matter (D4, log 11). -/
theorem exec_sys_eq_exec_call (nnn : Addr) (s : State) (h : s.sp.val < 16) : exec (.sys nnn) s = exec (.call nnn) s :=
  (callTo_eq (.sys nnn) nnn s h).trans (callTo_eq (.call nnn) nnn s h).symm

/-- Settles O32: both are `callTo`. -/
theorem sysIsACall : Obligations.SysIsACall := by
  unfold Obligations.SysIsACall
  refine ⟨fun _ => decodeWord_sys, fun nnn s => ⟨fun hfull => ?_, fun k hk => ?_⟩⟩
  · exact exec_faulted (if_pos hfull)
  · exact ⟨exec_sys_eq_exec_call nnn s (hk ▸ k.isLt), callTo_pushes (.sys nnn) nnn s k hk⟩

/-- Settles O33: the return pops the entry the call pushed, which the later state still holds. -/
theorem callThenReturnComesBack : Obligations.CallThenReturnComesBack := by
  unfold Obligations.CallThenReturnComesBack
  intro nnn s t u hsp hcall hdepth hentries
  obtain ⟨t', ht', hpushed, hspt, _⟩ := callTo_pushes (.call nnn) nnn s ⟨s.sp.val, hsp⟩ rfl
  obtain rfl := Host.Outcome.next.inj (hcall.symm.trans ht')
  obtain ⟨v, hret, hspv, hpc, _⟩ := execRet_pops u ⟨s.sp.val, hsp⟩ ((congrArg Fin.val hdepth).trans hspt)
  have hentry := hentries ⟨s.sp.val, hsp⟩ (by rw [hspt]; exact Nat.lt_succ_self _)
  exact ⟨v, hret, hpc.trans (hentry.trans hpushed), Fin.ext hspv⟩

/-! ### Key skips -/

/-- A register value up to 15 names a key (R186). -/
theorem pressed_of_names {s : State} {v : Byte} {k : Fin 16} (h : v.toNat = k.val) : s.pressed v = s.key[k] := by
  have hlt : v.toNat < 16 := h ▸ k.isLt
  rw [pressed_eq, dif_pos hlt]
  exact getElem_congr_idx h

/-- A register value above 15 names none, and reads as not pressed (D12, log 19). -/
theorem pressed_of_names_none (s : State) {v : Byte} (h : 15 < v.toNat) : s.pressed v = false := by
  rw [pressed_eq, dif_neg (by omega)]

theorem exec_skp (x : RegIdx) (s : State) : exec (.skp x) s = .next (s.skipIf (s.pressed (s.reg x))) := rfl

theorem exec_sknp (x : RegIdx) (s : State) : exec (.sknp x) s = .next (s.skipIf (!s.pressed (s.reg x))) := rfl

theorem skipIf_pc (s : State) (c : Bool) : (s.skipIf c).pc = if c then s.pc + 2 else s.pc := by
  rw [skipIf_eq, jump_pc]

/-- Settles O36: each of the two skips on the value of `pressed`. -/
theorem keySkips : Obligations.KeySkips := by
  unfold Obligations.KeySkips
  refine fun x s => ⟨fun k hk => ?_, fun habove => ?_⟩
  · rw [exec_skp, exec_sknp, pressed_of_names hk]
    refine ⟨⟨_, rfl, skipIf_pc .., changesOnly_skipIf ..⟩, ⟨_, rfl, ?_, changesOnly_skipIf ..⟩⟩
    rw [skipIf_pc]
    cases s.key[k] <;> rfl
  · rw [exec_skp, exec_sknp, pressed_of_names_none s habove]
    exact ⟨rfl, _, rfl, skipIf_pc s true, changesOnly_skipIf ..⟩

end Sys2Proof.Machine

/-! # Flag-writing arithmetic and shifts (`42_alu.md` sections 1 and 3)

Each of the five is `setFlagThenResult`, which gives the frame, the result in `x[X]` and the flag in `x[15]`; what is left
is what result and flag are as numbers. -/

namespace Sys2Proof.Machine

/-- What the two writes of a flag-writing instruction leave (R133), `n` being the result as a number and `P` what is said
of the flag's byte. -/
theorem setFlagThenResult_writes (s : State) (x : RegIdx) (f : Bool) (r : Byte) {n : Nat} {P : Byte → Prop}
    (hr : r.toNat = n) (hf : P (flagByte f)) :
    ∃ t, (.next (s.setFlagThenResult x f r) : Result) = .next t ∧ (t.reg x).toNat = n ∧ (x ≠ 15 → P (t.reg 15)) ∧
      ChangesOnly s t (fun p => p = .reg x ∨ p = .reg 15) := by
  refine ⟨_, rfl, by rw [reg_setFlagThenResult_dest, hr], fun hx => ?_, changesOnly_setFlagThenResult ..⟩
  rwa [reg_setFlagThenResult_flag s f r hx]

/-- A flag tested as a proposition. -/
theorem flagByte_decide (P : Prop) [Decidable P] : flagByte (decide P) = if P then 1 else 0 := by
  by_cases h : P <;> simp [flagByte, h]

/-- A difference of bytes modulo 256 (R132). -/
theorem toNat_byte_sub (a b : Byte) : (a - b).toNat = (a.toNat + 256 - b.toNat) % 256 := by
  bv_omega

/-- Settles O39. -/
theorem addAndSubtractSetFlag : Obligations.AddAndSubtractSetFlag := by
  unfold Obligations.AddAndSubtractSetFlag
  refine fun x y s => ⟨?add, ?sub, ?subn⟩
  case add => exact setFlagThenResult_writes s x _ _ (BitVec.toNat_add ..) (P := (· = _)) (flagByte_decide _)
  case sub => exact setFlagThenResult_writes s x _ _ (toNat_byte_sub ..) (P := (· = _)) (flagByte_decide _)
  case subn => exact setFlagThenResult_writes s x _ _ (toNat_byte_sub ..) (P := (· = _)) (flagByte_decide _)

/-- Bit `i` of a byte, as the number its flag holds. -/
theorem toNat_flagByte_getLsbD (a : Byte) (i : Nat) : (flagByte (a.getLsbD i)).toNat = a.toNat / 2 ^ i % 2 := by
  rw [← Nat.toNat_testBit]
  show _ = (a.getLsbD i).toNat
  cases a.getLsbD i <;> rfl

/-- The bits shifted out, as numbers (R128, R130). -/
theorem toNat_flagByte_shrOut (a : Byte) : (flagByte (shrOut a)).toNat = a.toNat % 2 := by
  rw [shrOut, toNat_flagByte_getLsbD, Nat.pow_zero, Nat.div_one]

theorem toNat_flagByte_shlOut (a : Byte) : (flagByte (shlOut a)).toNat = a.toNat / 128 := by
  have ha := a.isLt
  rw [shlOut, toNat_flagByte_getLsbD]
  omega

theorem toNat_shr_one (a : Byte) : (a >>> 1).toNat = a.toNat / 2 := by
  rw [BitVec.toNat_ushiftRight, Nat.shiftRight_one]

theorem toNat_shl_one (a : Byte) : (a <<< 1).toNat = a.toNat * 2 % 256 := by
  rw [BitVec.toNat_shiftLeft, Nat.shiftLeft_eq]

/-- Settles O40: `shr` and `shl` take the register field `Y` and do not use it. -/
theorem shiftsSetFlag : Obligations.ShiftsSetFlag := by
  unfold Obligations.ShiftsSetFlag
  refine fun x y y' s => ⟨?shr, ?shl, rfl, rfl⟩
  case shr =>
    exact setFlagThenResult_writes s x _ _ (toNat_shr_one _) (P := (·.toNat = _)) (toNat_flagByte_shrOut _)
  case shl =>
    exact setFlagThenResult_writes s x _ _ (toNat_shl_one _) (P := (·.toNat = _)) (toNat_flagByte_shlOut _)

end Sys2Proof.Machine

/-! # Index arithmetic and fetching what was stored (`43_index_memory.md` section 2, `20_memory.md` section 7) -/

namespace Sys2Proof.Machine

/-- Settles O43: 255 × 5 fits in 16 bits. -/
theorem indexArithmetic : Obligations.IndexArithmetic := by
  unfold Obligations.IndexArithmetic
  refine fun x s => ⟨⟨_, rfl, ?sum, changesOnly_setI ..⟩, ⟨_, rfl, ?times, changesOnly_setI ..⟩⟩
  case sum => exact (BitVec.toNat_add ..).trans (by rw [toNat_byteWord])
  case times =>
    have hv := (s.reg x).isLt
    refine (BitVec.toNat_mul ..).trans ?_
    rw [toNat_byteWord]
    exact Nat.mod_eq_of_lt (show (s.reg x).toNat * 5 < 2 ^ 16 by omega)

/-- The word fetched at an address is that of the two bytes there, the lower address high (R53). -/
theorem fetchWord_jump (s : State) {v : Word} {a : Nat} (hv : v.toNat = a) (ha : a ≤ 4094) :
    (s.jump v).fetchWord = some (wordOfBytes (s.mem.read a) (s.mem.read (a + 1))) := by
  subst hv
  exact fetchWord_eq (s.jump v) ha

/-- Settles O47. -/
theorem fetchSeesStore : Obligations.FetchSeesStore := by
  unfold Obligations.FetchSeesStore
  intro x i j s t hin hstore hj hji
  obtain ⟨t', ht', _, hread, _⟩ := exec_storeRegs_stores x s hin
  obtain rfl := Host.Outcome.next.inj (hstore.symm.trans ht')
  have hjx : j.val ≤ x.val := hj
  have hi : i ≤ x := Fin.le_def.2 (by omega)
  have haddr : (s.I + BitVec.ofNat 16 i.val).toNat = s.I.toNat + i.val := by
    rw [BitVec.toNat_add, BitVec.toNat_ofNat]
    omega
  have hnext : s.I.toNat + i.val + 1 = s.I.toNat + j.val := by omega
  rw [fetchWord_jump t haddr (by omega), hnext, hread i hi, hread j hj]

end Sys2Proof.Machine

/-! # Drawing (`44_display.md`) -/

namespace Sys2Proof.Machine

/-- The sprite of `DXYN` has at most 15 rows, so no pixel is visited twice (R166): each is XORed with its sprite bit, and
the collision flag is set where a pixel that was on met a 1 bit. -/
theorem drawn_eq (x y : RegIdx) (n : Nibble) (s : State) :
    (∀ px py, (drawn x y n s).1.pixel px py = (s.fb.pixel px py ^^ s.spriteBitAt x y n px py)) ∧
    ((drawn x y n s).2 = true ↔ ∃ px py, s.fb.pixel px py = true ∧ s.spriteBitAt x y n px py = true) := by
  have hrows : (s.mem.readBytes s.I.toNat n.toNat).length ≤ 32 := by
    have := n.isLt
    rw [Memory.length_readBytes]
    omega
  obtain ⟨hpixel, hflag⟩ := drawDots_eq s.fb _ (spriteDots_distinct (s.reg x) (s.reg y) 0 _ hrows)
  refine ⟨fun px py => (hpixel px py).trans (by rw [hits_spriteDots]), ?_⟩
  rw [drawn, hflag, List.any_eq_true]
  simp only [← hits_spriteDots, hits, List.any_eq_true, Bool.and_eq_true, decide_eq_true_eq]
  constructor
  · rintro ⟨d, hd, hbit, hon⟩
    exact ⟨d.px, d.py, hon, d, hd, hbit, rfl, rfl⟩
  · rintro ⟨_, _, hon, d, hd, hbit, rfl, rfl⟩
    exact ⟨d, hd, hbit, hon⟩

theorem exec_drw (x y : RegIdx) (n : Nibble) (s : State) : exec (.drw x y n) s = execDrw x y n s := rfl

/-- All that `DXYN` does where its bound holds. -/
theorem exec_drw_draws (x y : RegIdx) (n : Nibble) (s : State) (h : n.toNat = 0 ∨ s.I.toNat + n.toNat - 1 < 4096) :
    ∃ t, exec (.drw x y n) s = .next t ∧
      (∀ px py, t.fb.pixel px py = (s.fb.pixel px py ^^ s.spriteBitAt x y n px py)) ∧
      (t.reg 15 = 1 ∨ t.reg 15 = 0) ∧
      (t.reg 15 = 1 ↔ ∃ px py, s.fb.pixel px py = true ∧ s.spriteBitAt x y n px py = true) ∧
      ChangesOnly s t (fun p => p = .reg 15 ∨ ∃ px py, p = .pixel px py) := by
  obtain ⟨hpixel, hflag⟩ := drawn_eq x y n s
  refine ⟨_, (exec_drw x y n s).trans (execDrw_eq x y n s (by omega)), hpixel, ?_, ?_, ?_⟩
  · rw [reg_setReg_self]
    exact flagByte_cases _
  · rw [reg_setReg_self, flagByte_eq_one]
    exact hflag
  · exact ((changesOnly_fb ..).weaken fun _ => .inr).trans ((changesOnly_setReg ..).weaken fun _ => .inl)

/-- Settles O49: past the end it raises, elsewhere it draws. -/
theorem drawXorsSprite : Obligations.DrawXorsSprite := by
  unfold Obligations.DrawXorsSprite
  exact fun x y n s => ⟨fun hout => exec_faulted (if_pos hout), exec_drw_draws x y n s⟩

/-- The sprite is read through `x[X]`, `x[Y]`, `I` and memory. -/
theorem spriteBitAt_congr {s t : State} {x y : RegIdx} (n : Nibble) (hx : t.reg x = s.reg x) (hy : t.reg y = s.reg y)
    (hI : t.I = s.I) (hmem : ∀ a, t.mem.read a = s.mem.read a) (px : Fin 64) (py : Fin 32) :
    t.spriteBitAt x y n px py = s.spriteBitAt x y n px py := by
  simp only [State.spriteBitAt, hx, hy, hI, hmem]

/-- Settles O50: the first draw leaves the sprite as it was, and XOR with it twice is no change. -/
theorem drawTwiceRestores : Obligations.DrawTwiceRestores := by
  unfold Obligations.DrawTwiceRestores
  intro x y n s t hx hy hin hdraw
  obtain ⟨t', ht', hfirst, _, _, hframe⟩ := exec_drw_draws x y n s hin
  obtain rfl := Host.Outcome.next.inj (hdraw.symm.trans ht')
  have hI : t.I = s.I := hframe.agree .index (by simp)
  have hregX : t.reg x = s.reg x := hframe.agree (.reg x) (by simpa using hx)
  have hregY : t.reg y = s.reg y := hframe.agree (.reg y) (by simpa using hy)
  have hsprite := spriteBitAt_congr n hregX hregY hI fun a => hframe.agree (.byte a) (by simp)
  obtain ⟨u, hu, hsecond, _, hflag, _⟩ := exec_drw_draws x y n t (hI ▸ hin)
  refine ⟨u, hu, fun px py => ?_, by simpa only [hsprite] using hflag⟩
  rw [hsecond, hfirst, hsprite, Bool.xor_assoc, Bool.xor_self, Bool.xor_false]

end Sys2Proof.Machine

/-! # The writers of each piece of state (`10_state.md`)

A fault taken changes `halted` and `fault` alone; whatever else changes is changed by an effect, where the writers are the
instructions whose updated state does not show the field as it was. -/

namespace Sys2Proof.Machine

section Writers

variable {rnd : Byte} {i : Instr} {s : State}

theorem effect_mem_writers (h : (effect rnd i s).mem ≠ s.mem) : ∃ x, i = .ldB x ∨ i = .storeRegs x := by
  cases i
  case ldB x => exact ⟨x, .inl rfl⟩
  case storeRegs x => exact ⟨x, .inr rfl⟩
  all_goals exact absurd rfl h

theorem effect_I_writers (h : (effect rnd i s).I ≠ s.I) :
    (∃ nnn, i = .ldI nnn) ∨ ∃ x, i = .addI x ∨ i = .ldF x ∨ i = .storeRegs x ∨ i = .loadRegs x := by
  cases i
  case ldI nnn => exact .inl ⟨nnn, rfl⟩
  case addI x => exact .inr ⟨x, .inl rfl⟩
  case ldF x => exact .inr ⟨x, .inr (.inl rfl)⟩
  case storeRegs x => exact .inr ⟨x, .inr (.inr (.inl rfl))⟩
  case loadRegs x => exact .inr ⟨x, .inr (.inr (.inr rfl))⟩
  all_goals exact absurd rfl h

theorem effect_pc_writers (h : (effect rnd i s).pc ≠ s.pc) :
    i = .ret ∨ (∃ nnn, i = .sys nnn ∨ i = .jp nnn ∨ i = .call nnn ∨ i = .jpV0 nnn) ∨
      (∃ x nn, i = .seImm x nn ∨ i = .sneImm x nn) ∨ (∃ x y, i = .seReg x y ∨ i = .sneReg x y) ∨
      ∃ x, i = .skp x ∨ i = .sknp x := by
  cases i
  case ret => exact .inl rfl
  case sys nnn => exact .inr (.inl ⟨nnn, .inl rfl⟩)
  case jp nnn => exact .inr (.inl ⟨nnn, .inr (.inl rfl)⟩)
  case call nnn => exact .inr (.inl ⟨nnn, .inr (.inr (.inl rfl))⟩)
  case jpV0 nnn => exact .inr (.inl ⟨nnn, .inr (.inr (.inr rfl))⟩)
  case seImm x nn => exact .inr (.inr (.inl ⟨x, nn, .inl rfl⟩))
  case sneImm x nn => exact .inr (.inr (.inl ⟨x, nn, .inr rfl⟩))
  case seReg x y => exact .inr (.inr (.inr (.inl ⟨x, y, .inl rfl⟩)))
  case sneReg x y => exact .inr (.inr (.inr (.inl ⟨x, y, .inr rfl⟩)))
  case skp x => exact .inr (.inr (.inr (.inr ⟨x, .inl rfl⟩)))
  case sknp x => exact .inr (.inr (.inr (.inr ⟨x, .inr rfl⟩)))
  all_goals exact absurd rfl h

theorem effect_stack_writers (h : (effect rnd i s).stack ≠ s.stack) : ∃ nnn, i = .sys nnn ∨ i = .call nnn := by
  cases i
  case sys nnn => exact ⟨nnn, .inl rfl⟩
  case call nnn => exact ⟨nnn, .inr rfl⟩
  all_goals exact absurd rfl h

theorem effect_sp_writers (h : (effect rnd i s).sp ≠ s.sp) : i = .ret ∨ ∃ nnn, i = .sys nnn ∨ i = .call nnn := by
  cases i
  case ret => exact .inl rfl
  case sys nnn => exact .inr ⟨nnn, .inl rfl⟩
  case call nnn => exact .inr ⟨nnn, .inr rfl⟩
  all_goals exact absurd rfl h

theorem effect_dt_writers (h : (effect rnd i s).dt ≠ s.dt) : ∃ x, i = .ldDTVx x := by
  cases i
  case ldDTVx x => exact ⟨x, rfl⟩
  all_goals exact absurd rfl h

theorem effect_st_writers (h : (effect rnd i s).st ≠ s.st) : ∃ x, i = .ldSTVx x := by
  cases i
  case ldSTVx x => exact ⟨x, rfl⟩
  all_goals exact absurd rfl h

theorem effect_fb_writers (h : (effect rnd i s).fb ≠ s.fb) : i = .cls ∨ ∃ x y n, i = .drw x y n := by
  cases i
  case cls => exact .inl rfl
  case drw x y n => exact .inr ⟨x, y, n, rfl⟩
  all_goals exact absurd rfl h

theorem effect_waiting_writers (h : (effect rnd i s).waiting ≠ s.waiting) : ∃ x, i = .ldVxK x := by
  cases i
  case ldVxK x => exact ⟨x, rfl⟩
  all_goals exact absurd rfl h

theorem effect_draws_writers (h : (effect rnd i s).draws ≠ s.draws) : ∃ x nn, i = .rnd x nn := by
  cases i
  case rnd x nn => exact ⟨x, nn, rfl⟩
  all_goals exact absurd rfl h

/-! ### The general registers (R21, R22) -/

/-- A register write changes its destination only. -/
theorem eq_of_reg_setReg_ne {r x : RegIdx} {v : Byte} (h : (s.setReg x v).reg r ≠ s.reg r) : r = x := by
  by_contra hne
  exact h ((reg_setReg ..).trans (if_neg hne))

/-- A flag-writing instruction changes its destination and `x[15]` only (R133). -/
theorem eq_of_reg_setFlagThenResult_ne {r x : RegIdx} {f : Bool} {v : Byte}
    (h : (s.setFlagThenResult x f v).reg r ≠ s.reg r) : r = x ∨ r = 15 := by
  by_contra hne
  obtain ⟨hx, h15⟩ := not_or.1 hne
  exact h (by rw [State.setFlagThenResult, reg_setReg, if_neg hx, reg_setReg, if_neg h15])

/-- `FX65` changes `x[0]` to `x[X]` only (R145). -/
theorem le_of_reg_loaded_ne {r x : RegIdx}
    (h : (putRegs 0 (s.mem.readBytes s.I.toNat (x.val + 1)) s.x)[r] ≠ s.x[r]) : r ≤ x := by
  by_contra hlt
  exact h ((getElem_putRegs_readBytes s.mem s.I.toNat x r s.x).trans (if_neg hlt))

/-- The writers of a register: those that have it as destination, and for `x[15]` also those that define a flag. -/
theorem effect_reg_writers {r : RegIdx} (h : (effect rnd i s).reg r ≠ s.reg r) :
    (∃ nn, i = .ldImm r nn ∨ i = .addImm r nn ∨ i = .rnd r nn) ∨
    (∃ y, i = .ldReg r y ∨ i = .orReg r y ∨ i = .andReg r y ∨ i = .xorReg r y) ∨
    (∃ x y, (r = x ∨ r = 15) ∧
      (i = .addReg x y ∨ i = .sub x y ∨ i = .shr x y ∨ i = .subn x y ∨ i = .shl x y)) ∨
    (r = 15 ∧ ∃ x y n, i = .drw x y n) ∨ i = .ldVxDT r ∨ ∃ x, r ≤ x ∧ i = .loadRegs x := by
  cases i
  case ldImm | addImm | rnd =>
    obtain rfl := eq_of_reg_setReg_ne h
    simp
  case ldReg | orReg | andReg | xorReg | ldVxDT =>
    obtain rfl := eq_of_reg_setReg_ne h
    simp
  case addReg | sub | shr | subn | shl =>
    have hr := eq_of_reg_setFlagThenResult_ne h
    simpa using hr
  case drw x y n =>
    obtain rfl := eq_of_reg_setReg_ne (s := { s with fb := (drawn x y n s).1 }) h
    simp
  case loadRegs x =>
    have hr := le_of_reg_loaded_ne h
    simpa using hr
  all_goals exact absurd rfl h

end Writers

/-- Settles O53: a fault changes `halted` and `fault` alone, and what an effect changes has its writers. -/
theorem onlyTheListedWriters : Obligations.OnlyTheListedWriters := by
  unfold Obligations.OnlyTheListedWriters
  intro i s t h
  rcases takeFault_or_effect_of_exec h with ⟨k, hk, rfl⟩ | ⟨hq, rfl⟩
  · have hnone : k ≠ .none := fun e => faultOf_ne_none i s (hk.trans (congrArg some e))
    exact ⟨rfl, rfl, absurd rfl, absurd rfl, absurd rfl, absurd rfl, absurd rfl, absurd rfl, absurd rfl, absurd rfl,
      absurd rfl, absurd rfl, fun _ => rfl, fun _ => ⟨k, hnone, rfl, rfl, changesOnly_takeFault ..⟩⟩
  · have hquiet := quiet_effect (Config.randomByte s.draws) hq
    exact ⟨hquiet.key, hquiet.loadResult, effect_mem_writers, effect_I_writers, effect_pc_writers, effect_stack_writers,
      effect_sp_writers, effect_dt_writers, effect_st_writers, effect_fb_writers, effect_waiting_writers,
      effect_draws_writers, hquiet.halted.trans,
      fun hchanged => hchanged.elim (absurd hquiet.halted) (absurd hquiet.fault)⟩

/-- A register that an execute stage changes is changed by its effect, since a fault taken changes none. -/
theorem effect_reg_ne_of_exec {i : Instr} {s t : State} {r : RegIdx} (h : exec i s = .next t) (hne : t.reg r ≠ s.reg r) :
    (effect (Config.randomByte s.draws) i s).reg r ≠ s.reg r := by
  rcases takeFault_or_effect_of_exec h with ⟨k, _, rfl⟩ | ⟨_, rfl⟩
  · exact absurd (reg_takeFault ..) hne
  · exact hne

/-- Settles O54: the writers of `x[15]`, of which `FX65` reaches it with X = 0xF only. -/
theorem flagRegisterWriters : Obligations.FlagRegisterWriters := by
  unfold Obligations.FlagRegisterWriters
  intro i s t h hne
  rcases effect_reg_writers (effect_reg_ne_of_exec h hne) with
    himm | hreg | ⟨x, y, _, hflag⟩ | ⟨_, hdrw⟩ | hdt | ⟨x, hle, hload⟩
  · exact .inr (.inr (.inr (.inl himm)))
  · exact .inr (.inr (.inl hreg))
  · exact .inl ⟨x, y, hflag⟩
  · exact .inr (.inl hdrw)
  · exact .inr (.inr (.inr (.inr (.inl hdt))))
  · obtain rfl : x = 15 := Fin.le_antisymm (Fin.le_last x) hle
    exact .inr (.inr (.inr (.inr (.inr hload))))

/-- Settles O55: for a register other than `x[15]` the flag writers are those that have it as destination. -/
theorem registersOtherThanDestinationsSurvive : Obligations.RegistersOtherThanDestinationsSurvive := by
  unfold Obligations.RegistersOtherThanDestinationsSurvive
  intro i s t r h hr hne
  rcases effect_reg_writers (effect_reg_ne_of_exec h hne) with
    himm | ⟨y, hreg⟩ | ⟨x, y, hx | h15, hflag⟩ | ⟨h15, _⟩ | hdt | hload
  · exact .inl himm
  · refine .inr (.inl ⟨y, ?_⟩)
    rcases hreg with hi | hi | hi | hi <;> simp [hi]
  · subst hx
    refine .inr (.inl ⟨y, ?_⟩)
    rcases hflag with hi | hi | hi | hi | hi <;> simp [hi]
  · exact absurd h15 hr
  · exact absurd h15 hr
  · exact .inr (.inr (.inl hdt))
  · exact .inr (.inr (.inr hload))

end Sys2Proof.Machine

/-! # The end of a run (`70_reset_and_hazards.md` section 3)

A verdict that is not `unfinished` is kept by every event but `RESET` and `LOAD`; so the verdict of a run that has one is
that of the state in which it was reached. -/

namespace Sys2Proof.Machine

/-- `pc` is a 12-bit address exactly when it is that number. -/
theorem eq_addrWord_iff (v : Word) (a : Addr) : v = addrWord a ↔ v.toNat = a.toNat := by
  rw [← BitVec.toNat_inj, toNat_addrWord]

/-- The word fetched is the self-jump exactly when it decodes to it. -/
theorem eq_encode_iff_decodes {w : Word} {i : Instr} (hwf : i.wf = true) : w = encode i ↔ decodeWord w = .ok i :=
  ⟨fun h => h ▸ decodeWord_encode i hwf, fun h => (encodeDecodeRoundTrip w i h).2.symm⟩

/-- The normal end on plain state: Running at the stated address, where the word is a jump to itself. -/
theorem verdict_eq_ended_iff_at_jump (a : Addr) (s : State) :
    s.verdict a = .ended ↔ s.halted = false ∧ s.waiting = none ∧ s.pc.toNat = a.toNat ∧
      ∃ w, s.fetchWord = some w ∧ decodeWord w = .ok (.jp a) := by
  rw [verdict_eq_ended_iff, runState_running_iff, eq_addrWord_iff, and_assoc]
  simp only [← eq_encode_iff_decodes (i := .jp a) rfl, exists_eq_right]

/-- At the end every step is the identity: the jump goes where it stands. -/
theorem cycle_at_end {a : Addr} {s : State} {ex : Instr → State → Result} (h : s.verdict a = .ended)
    (hjp : ∀ s, ex (.jp a) s = exec (.jp a) s) : cycle ex s = .next s := by
  obtain ⟨hrun, hpc, hf⟩ := (verdict_eq_ended_iff a s).1 h
  have hback : s.advance.jump (addrWord a) = s := by
    rw [← hpc]
    rfl
  exact (cycle_ok ex hrun hf (decodeWord_encode (.jp a) rfl)).trans ((hjp _).trans (congrArg _ hback))

/-- The verdict speaks of `halted`, `waiting`, `pc` and the word fetched. -/
theorem verdict_ended_congr {a : Addr} {s t : State} (hrun : t.runState = s.runState) (hpc : t.pc = s.pc)
    (hmem : t.mem = s.mem) (h : s.verdict a = .ended) : t.verdict a = .ended := by
  rw [verdict_eq_ended_iff, State.fetchWord, hrun, hpc, hmem]
  exact (verdict_eq_ended_iff a s).1 h

/-- An ended run stays ended through every event but `RESET` and `LOAD`. -/
theorem deliver_ended {a : Addr} {e : Event} {s t : State} (hd : deliver e s = .next t) (h : s.verdict a = .ended)
    (hreset : e ≠ .reset) (hload : ∀ bytes, e ≠ .load bytes) : t.verdict a = .ended := by
  cases e with
  | step rnd =>
    have hstay : stepRnd rnd s = .next s := cycle_at_end h fun _ => rfl
    obtain rfl := Host.Outcome.next.inj (hstay.symm.trans hd)
    exact h
  | tick | press id =>
    obtain rfl := Host.Outcome.next.inj hd
    exact verdict_ended_congr rfl rfl rfl h
  | lift id =>
    obtain rfl := Host.Outcome.next.inj hd
    obtain ⟨_, hwaiting, _⟩ := (verdict_eq_ended_iff_at_jump a s).1 h
    rw [lift_of_no_wait id hwaiting]
    exact verdict_ended_congr rfl rfl rfl h
  | load bs => exact absurd rfl (hload bs)
  | reset => exact absurd rfl hreset

/-- A failed run stays failed through every event but `RESET`. -/
theorem deliver_failed {a : Addr} {e : Event} {s t : State} (hd : deliver e s = .next t) (h : s.verdict a = .failed)
    (hreset : e ≠ .reset) : t.verdict a = .failed :=
  (verdict_eq_failed_iff a t).2 (deliver_halted hd ((verdict_eq_failed_iff a s).1 h) hreset).1

/-- Settles O56. -/
theorem endOfRun : Obligations.EndOfRun := by
  unfold Obligations.EndOfRun
  exact fun a s => ⟨verdict_eq_failed_iff a s, verdict_eq_ended_iff_at_jump a s,
    fun h => ⟨cycle_at_end h fun _ => rfl, fun _ => cycle_at_end h fun _ => rfl⟩,
    fun e t hd hreset => ⟨fun h => deliver_failed hd h hreset, fun h hload => deliver_ended hd h hreset hload⟩⟩

/-! ### The verdict on a sequence of events -/

/-- A verdict once reached is that of the run. -/
theorem runVerdict_of_decided {a : Addr} {s : State} (h : s.verdict a ≠ .unfinished) (es : List Event) :
    runVerdict a es s = s.verdict a := by
  cases es with
  | nil => rfl
  | cons e es =>
    rw [runVerdict]
    cases hv : s.verdict a with
    | unfinished => exact absurd hv h
    | ended | failed => rfl

/-- A run not yet decided goes on. -/
theorem runVerdict_of_unfinished {a : Addr} {e : Event} {s t : State} (es : List Event) (h : s.verdict a = .unfinished)
    (hd : deliver e s = .next t) : runVerdict a (e :: es) s = runVerdict a es t := by
  rw [runVerdict, h]
  simp only [hd]

/-- The run arrives, after some of its events, at a state with the run's verdict. -/
theorem runVerdict_arrives (a : Addr) (es : List Event) (s : State) :
    ∃ pre t, pre <+: es ∧ deliverAll pre s = .next t ∧ t.verdict a = runVerdict a es s := by
  induction es generalizing s with
  | nil => exact ⟨[], s, List.prefix_rfl, rfl, rfl⟩
  | cons e es ih =>
    by_cases hv : s.verdict a = .unfinished
    · obtain ⟨u, hu⟩ := deliver_next e s
      obtain ⟨pre, t, hpre, ht, hverdict⟩ := ih u
      rw [runVerdict_of_unfinished es hv hu]
      exact ⟨e :: pre, t, List.cons_prefix_cons.2 ⟨rfl, hpre⟩, (deliverAll_cons pre hu).trans ht, hverdict⟩
    · exact ⟨[], s, List.nil_prefix, rfl, (runVerdict_of_decided hv _).symm⟩

/-- A verdict reached is kept by every event but `RESET` and `LOAD`. -/
theorem deliver_decided {a : Addr} {e : Event} {s t : State} {v : RunVerdict} (hv : v ≠ .unfinished)
    (hd : deliver e s = .next t) (h : s.verdict a = v) (he : e ≠ .reset ∧ ∀ bytes, e ≠ .load bytes) :
    t.verdict a = v := by
  obtain ⟨hreset, hload⟩ := he
  cases v with
  | unfinished => exact absurd rfl hv
  | ended => exact deliver_ended hd h hreset hload
  | failed => exact deliver_failed hd h hreset

/-- Without `LOAD` and `RESET` the verdict of a run is that of its last state. -/
theorem runVerdict_eq_last (a : Addr) {es : List Event} (hes : ∀ e ∈ es, e ≠ .reset ∧ ∀ bytes, e ≠ .load bytes)
    (s : State) : ∃ u, deliverAll es s = .next u ∧ runVerdict a es s = u.verdict a := by
  induction es generalizing s with
  | nil => exact ⟨s, rfl, rfl⟩
  | cons e es ih =>
    by_cases hv : s.verdict a = .unfinished
    · obtain ⟨t, ht⟩ := deliver_next e s
      obtain ⟨u, hu, hverdict⟩ := ih (List.forall_mem_cons.1 hes).2 t
      exact ⟨u, (deliverAll_cons es ht).trans hu, (runVerdict_of_unfinished es hv ht).trans hverdict⟩
    · obtain ⟨u, hu, hkept⟩ := deliverAll_keeps (P := fun t => t.verdict a = s.verdict a)
        (fun e he _ _ h hd => deliver_decided hv hd h (hes e he)) rfl
      exact ⟨u, hu, (runVerdict_of_decided hv _).trans hkept.symm⟩

/-- Settles O57. -/
theorem runVerdictIsArrival : Obligations.RunVerdictIsArrival := by
  unfold Obligations.RunVerdictIsArrival
  refine fun a es s => ⟨fun v _ hrun => ?_, fun hes => runVerdict_eq_last a hes s⟩
  obtain ⟨pre, t, hpre, ht, hverdict⟩ := runVerdict_arrives a es s
  exact ⟨pre, t, hpre, ht, hverdict.trans hrun⟩

end Sys2Proof.Machine
